-- ==== Sys2Proof/Word.lean ====
section
/-! DEFINITION. The words of the block.

An operation word is its 5-bit operation number (spec/30_encoding.md R64, R65, R70). Every other
quantity is an unsigned integer that no operation sees as bits, and is a natural number
(spec/20_memory.md R45, spec/00_scope.md R11). -/

namespace Sys2Proof

/-- `OPN[4:0]` (R64). -/
abbrev OpWord := BitVec 5

/-- A duty value: "an integer count against a maximum countable value" (R61). -/
abbrev Duty := Nat

/-- The QuarterTable: entries 0 to `N`, index 0 first (R41). -/
abbrev QuarterTable := List Duty

end Sys2Proof
end

