-- ==== Sys2Proof/Config.lean ====
section
/-! DEFINITION. The constants of the block (spec/00_scope.md R6 to R10, spec/40_table_builder.md R77)
the two values at reset that the spec leaves unspecified (spec/70_reset_and_hazards.md R148), and the free
values of a sub-operation's operand that the spec does not have (spec/43_fold_index_mux.md R106, R113). -/

namespace Sys2Proof

/-- The parameters a model "takes as an argument" (R6, R7, R8, R10, R77). -/
structure Config where
  /-- `N`, the table resolution (R6). -/
  n : Nat
  /-- `MAX_DUTY` (R7), an OPEN parameter. -/
  maxDuty : Nat
  /-- `DUTY_W` (R8), an OPEN parameter. -/
  dutyW : Nat
  /-- `LATCH_UNARMED` (R10, R92), an OPEN parameter. -/
  latchUnarmed : Bool
  /-- `Q(0) .. Q(N)`, the table BUILD makes, as a configuration value (R77). -/
  table : QuarterTable
  deriving DecidableEq, Repr

/-- `F_UPD`, 1 kHz (R10): timing information only, read by no rule. -/
def Config.updateHz : Nat := 1000

/-- `Q` for `N = 50`, `MAX_DUTY = 100` (spec/95_test_vectors.md section 2). -/
def Config.table50x100 : QuarterTable :=
  [0, 3, 6, 9, 13, 16, 19, 22, 25, 28, 31, 34, 37, 40, 43, 45, 48] ++
  [51, 54, 56, 59, 61, 64, 66, 68, 71, 73, 75, 77, 79, 81, 83, 84] ++
  [86, 88, 89, 90, 92, 93, 94, 95, 96, 97, 98, 98, 99, 99, 100, 100, 100, 100]

/-- The configuration `State.reset` carries: `N = 50` (R6), `DUTY_W = 16` and `LATCH_UNARMED = true`,
the spec's defaults (R8, R10). `MAX_DUTY` is OPEN in the spec; 100 is the source's example value.
DESIGN CHOICE, unsafe, log 4: claims are about every well-formed configuration, not this one. -/
def Config.hardware : Config where
  n := 50
  maxDuty := 100
  dutyW := 16
  latchUnarmed := true
  table := Config.table50x100

/-- Entry `j` of `TAB` at reset: "unspecified" (R147, R148), so a value no claim can mention.
DESIGN CHOICE, log 6. -/
opaque Config.tabAtReset : Nat → Nat

/-- `DUTY` at reset: "unspecified" (R147, R148), so a value no claim can mention.
DESIGN CHOICE, log 6. -/
opaque Config.dutyAtReset : Nat

/-- IDX's index for `N` and a phase value outside its quadrant, where the subtraction of R109 would go
below 0: the spec states no result, so a value no claim can mention. DESIGN CHOICE, log 18. -/
opaque Config.freeIndex : Nat → Nat → Nat

/-- FOLD's duty for `N` and a phase value of `4N` or more, where it "has no meaning" (R106, R67): a value
no claim can mention. DESIGN CHOICE, log 18. -/
opaque Config.freeDuty : Nat → Nat → Nat

/-- What a placed MUX or SETD is handed where `TAB` has no entry at index `j`: there LUT faults (R42), so
the spec has no operand for it, and it is a value no claim can mention. DESIGN CHOICE, log 19. -/
opaque Config.freeEntry : Nat → Nat

end Sys2Proof
end

