-- ==== Sys2Proof/Syntax.lean ====
section
/-! DEFINITION. The seventeen named operations (spec/30_encoding.md R64), one constructor per row of
spec/opcode_table.json. No operation has an operand field (R63, R65). -/

namespace Sys2Proof

/-- The operations, in the order of the table of R64. -/
inductive Instr where
  | idle
  | getmax
  | build
  | putp
  | enable
  | listen
  | uev
  | tick
  | claim
  | adv
  | ack
  | fold
  | quad
  | idx
  | lut
  | mux
  | setd
  deriving DecidableEq, Repr

/-- The agents that take steps (spec/00_scope.md R15). -/
inductive Agent where
  | startup
  | timer
  | driver
  deriving DecidableEq, Repr

/-- Column "agent" of the table of R64. -/
def Instr.agent : Instr → Agent
  | .idle | .getmax | .build | .putp | .enable | .listen => .startup
  | .uev => .timer
  | .tick | .claim | .adv | .ack | .fold | .quad | .idx | .lut | .mux | .setd => .driver

/-- The eight schedulable steps; the other nine are sub-operations of TICK (R64, R65). -/
def Instr.schedulable : Instr → Bool
  | .idle | .getmax | .build | .putp | .enable | .listen | .uev | .tick => true
  | .claim | .adv | .ack | .fold | .quad | .idx | .lut | .mux | .setd => false

end Sys2Proof
end

