-- ==== Sys2Proof/Machine/State.lean ====
section
/-! DEFINITION. The state of the machine (spec/10_state.md), its reset value
(spec/70_reset_and_hazards.md R147) and the reasons a step can stop. -/

namespace Sys2Proof.Machine

/-- The value of `FAULT`: 0, "no fault recorded", or one of the five codes (R125). -/
inductive FaultCode where
  | noFault
  | slotEmpty
  | slotRewrite
  | owner
  | phaseRange
  | indexRange
  deriving DecidableEq, Repr

/-- A hand-off slot: never written, holding its payload, or read and cleared (R22, R23). -/
inductive Slot (α : Type) where
  | empty0
  | full (v : α)
  | taken
  deriving DecidableEq, Repr

/-- The PwmHandle, a capability "which carries no data" (R23). -/
structure PwmHandle where
  deriving DecidableEq, Repr

/-- The select code of format S, `{zero, quad[1:0]}` (R59). -/
structure Select where
  zero : Bool
  quad : Fin 4
  deriving DecidableEq, Repr

/-- Where a split invocation stands: what its last sub-operation has handed to the next (R104, R164).
The MODEL's own (log 1): with TICK as the one indivisible step of R50 it is always `idle`, and the
values are the transient wires of R31, which exist only inside an invocation. -/
inductive Stage where
  /-- No invocation is in progress. -/
  | idle
  /-- CLAIM is done; ADV is next. -/
  | claimed
  /-- ADV is done and handed over `i`; ACK is next. -/
  | advanced (i : Nat)
  /-- ACK is done; FOLD, or its first stage QUAD, is next with `i`. -/
  | acked (i : Nat)
  /-- QUAD is done; IDX is next. -/
  | decoded (i : Nat) (sel : Select)
  /-- IDX is done; LUT is next. -/
  | indexed (zero : Bool) (idx : Nat)
  /-- LUT is done; MUX is next. -/
  | looked (zero : Bool) (entry : Duty)
  /-- FOLD is done; SETD is next with `duty`. -/
  | folded (duty : Duty)
  deriving DecidableEq, Repr

/-- The eleven elements of the summary table of spec/10_state.md, the constants the model takes as an
argument, and three fields of the model's own (`got`, `stage`, `sched`). -/
structure State where
  /-- The constants (R6 to R10, R77); no operation writes them. Log 4. -/
  cfg : Config
  /-- `PHASE`: the phase value the next invocation will fold (R19). -/
  phase : Nat
  /-- `RUN`: 0 "uninitialized", 1 "running" (R20). -/
  run : Bool
  /-- `TAB[0..N]`: the claimed table (R21). -/
  tab : QuarterTable
  /-- `TSLOT`: the hand-off slot of the table (R22). -/
  tslot : Slot QuarterTable
  /-- `PSLOT`: the hand-off slot of the PwmHandle (R23). -/
  pslot : Slot PwmHandle
  /-- `UIF`: an update event is pending (R24). -/
  uif : Bool
  /-- `UIE`: update-interrupt generation is armed (R25). -/
  uie : Bool
  /-- `PWM_EN`: the PWM channel is enabled (R26). -/
  pwmEn : Bool
  /-- `DUTY`: the duty value of the PWM channel (R27). -/
  duty : Duty
  /-- `FAULT`: the first fault raised (R29). -/
  fault : FaultCode
  /-- `OUT`: the duty values written since reset, oldest first (R30). -/
  out : List Duty
  /-- The results GETMAX has handed to STARTUP, oldest first (R73). The model's record, log 9. -/
  got : List Nat
  /-- The split invocation in progress (R104). The model's own, log 1. -/
  stage : Stage
  /-- The operation words still to be performed: the run of R51 and R71. The model's input, log 2. -/
  sched : List OpWord
  deriving DecidableEq, Repr

/-- Why the machine stops. -/
inductive Fault where
  /-- `FAULT` holds this code: "the machine is stopped for good" (R126). Answered by every operation
  once `FAULT` is non-zero. Safe: it errs toward unprovable (D8). -/
  | stopped (code : FaultCode)
  deriving DecidableEq, Repr

/-- Why there is no step. -/
inductive Refusal where
  /-- An instruction without a meaning: raised by no arm of this model. Safe. -/
  | notModelled (mnemonic : String)
  /-- The operation is not enabled in this state (R65, R81, R93, R94, R104, R140), so the schedule that
  names it here "is not a run". Raised by every operation but UEV. Safe, log 8. -/
  | notEnabled (op : Instr)
  /-- The schedule holds a reserved operation number, "a decoder refuses them" (R68). Raised by
  `step`. Safe, log 14. -/
  | reservedWord (w : OpWord)
  /-- The configuration is invalid: "refused before any step" (R79, R131, D20). Raised by `step`. Safe,
  log 15. -/
  | badConfig
  /-- A duty above `MAX_DUTY` would reach the PWM channel: "a model that is handed one refuses" (U21,
  R69). Raised by SETD and TICK. Safe, log 11. -/
  | dutyRange (duty : Duty)
  deriving DecidableEq, Repr

/-- The state after reset under the configuration `c` (R147). `TAB` and `DUTY` are "unspecified" there:
they hold opaque values (log 6), of the widths of R21 and R27. -/
def State.resetWith (c : Config) : State where
  cfg := c
  phase := 0
  run := false
  tab := (List.range (c.n + 1)).map fun j => Config.tabAtReset j % 2 ^ c.dutyW
  tslot := .empty0
  pslot := .empty0
  uif := false
  uie := false
  pwmEn := false
  duty := Config.dutyAtReset % 2 ^ c.dutyW
  fault := .noFault
  out := []
  got := []
  stage := .idle
  sched := []

/-- The machine right after reset (R147), under the configuration of log 4. -/
def State.reset : State := State.resetWith Config.hardware

end Sys2Proof.Machine
end

