-- ==== Sys2Proof/WellFormed.lean ====
section
/-! DEFINITION. What is well formed: a configuration (spec/60_exceptions.md R131,
spec/40_table_builder.md R78), a run (spec/30_encoding.md R65) and a start-up program
(spec/70_reset_and_hazards.md R154, spec/41_startup_handoff.md R88, R89). An operation has no operands,
so every operation is. -/

namespace Sys2Proof

/-- "non-decreasing" (R78 (c)). -/
def nondecreasing : List Nat → Bool
  | [] => true
  | [_] => true
  | a :: b :: l => decide (a ≤ b) && nondecreasing (b :: l)

/-- `N >= 1`, `MAX_DUTY > 0`, `2^DUTY_W > MAX_DUTY` (R6, R7, R8, R131 (b)). -/
def Config.paramsOk (c : Config) : Bool :=
  decide (1 ≤ c.n) && decide (0 < c.maxDuty) && decide (c.maxDuty < 2 ^ c.dutyW)

/-- The table has `N + 1` entries (R41) and the properties (a), (b), (c) of R78, which give (d). R77 only
lets a model assume these; that a table without them is refused is DEDUCED, log 5. -/
def Config.tableOk (c : Config) : Bool :=
  decide (c.table.length = c.n + 1) && decide (c.table[0]? = some 0) &&
    decide (c.table[c.n]? = some c.maxDuty) && nondecreasing c.table

/-- A configuration that has runs: any other is refused before any step, for its parameters by R79 and
R131 (b), for its table by log 5. -/
def Config.wf (c : Config) : Bool := c.paramsOk && c.tableOk

/-- Every operation is well formed: it has no operand field (R65). -/
def Instr.wf (_ : Instr) : Bool := true

/-- A run's operations are the schedulable ones (R65). -/
def runWf (l : List Instr) : Bool := l.all Instr.schedulable

/-- Every `a` of the list has only IDLE after it. -/
def onlyIdleAfter (a : Instr) : List Instr → Bool
  | [] => true
  | i :: l => (if i = a then l.all (· = .idle) else true) && onlyIdleAfter a l

/-- Every `a` of the list stands before the first `b` (R154). -/
def allBefore (a b : Instr) : List Instr → Bool
  | [] => true
  | i :: l => if i = b then !l.contains a else allBefore a b l

/-- A well-formed start-up program (R154), clause by clause: STARTUP's operations only (R15); BUILD
and PUTP exactly once; LISTEN and ENABLE at most once; BUILD, PUTP and ENABLE before LISTEN; GETMAX
before BUILD; after LISTEN only IDLE. -/
def startupWf (p : List Instr) : Bool :=
  p.all (·.agent = .startup) &&
  decide (p.count .build = 1) && decide (p.count .putp = 1) &&
  decide (p.count .listen ≤ 1) && decide (p.count .enable ≤ 1) &&
  allBefore .build .listen p && allBefore .putp .listen p && allBefore .enable .listen p &&
  allBefore .getmax .build p && onlyIdleAfter .listen p

/-- "IDLE never ends: after its first IDLE, STARTUP issues nothing but IDLE"
(spec/41_startup_handoff.md R88). -/
def parkedAfterIdle (p : List Instr) : Bool := onlyIdleAfter .idle p

/-- A program STARTUP may have: well formed by R154, and parked for good by its first IDLE (R88). After
the first TICK, which needs the LISTEN, it is only IDLE (R89). -/
def startupProgramWf (p : List Instr) : Bool := startupWf p && parkedAfterIdle p

end Sys2Proof
end

