-- ==== Sys2Proof/Machine/Ops.lean ====
section
/-! DEFINITION. The named operations the meanings share: raising a fault (spec/60_exceptions.md R126),
enabling (R126, spec/20_memory.md R50), the slot and table primitives (spec/20_memory.md R42 to R44) and
the duty write (spec/43_fold_index_mux.md R115). -/

namespace Sys2Proof.Machine

/-- What one operation answers. -/
abbrev Result := Host.Outcome State Fault Refusal

/-- `raise <Fault>`: "if `FAULT = 0` then `FAULT <- code`; the operation that raised it ends and writes
no other state" (R126). `s` is the state the operation began in. There is no return: "cleared only by
reset". -/
def raise (c : FaultCode) (s : State) : Result :=
  .next (if s.fault = .noFault then { s with fault := c } else s)

/-- An operation takes effect only where it is enabled: never with a fault recorded, "the machine is
stopped for good" (R126), and only under its own condition `en`. -/
def guarded (i : Instr) (en : Bool) (s : State) (effect : Result) : Result :=
  if s.fault = .noFault then
    if en then effect else .refused (.notEnabled i)
  else .fault (.stopped s.fault)

/-- An operation "either writes all the state its rule lists or raises a fault and writes only
`FAULT`" (R50): `e` holds the state it writes, or the fault it raises from `s`. -/
def settle (s : State) : Except FaultCode State → Result
  | .ok t => .next t
  | .error c => raise c s

/-- `SlotPut(S, v)` (R43). -/
def slotPut {α : Type} (S : Slot α) (v : α) : Except FaultCode (Slot α) :=
  match S with
  | .empty0 => .ok (.full v)
  | .full _ => .error .slotRewrite
  | .taken => .error .slotRewrite

/-- `SlotTake(S)`: the payload and the cleared slot (R44). -/
def slotTake {α : Type} (S : Slot α) : Except FaultCode (α × Slot α) :=
  match S with
  | .empty0 => .error .slotEmpty
  | .full v => .ok (v, .taken)
  | .taken => .error .slotEmpty

/-- `TabRead(j)` (R42): entry `j` for `0 <= j <= N`, IndexRange above. With `RUN = 0` it reads the
unspecified contents `TAB` has at reset (R148, log 6). -/
def tabRead (s : State) (j : Nat) : Except FaultCode Duty :=
  if j ≤ s.cfg.n then
    match s.tab[j]? with
    | some v => .ok v
    | none => .error .indexRange
  else .error .indexRange

/-- The write of SETD: `DUTY <- duty; OUT <- OUT ++ [duty]` (R115). A value above `MAX_DUTY` is
refused (U21). -/
def setDuty (d : Duty) (s : State) : Result :=
  if d ≤ s.cfg.maxDuty then .next { s with duty := d, out := s.out ++ [d] }
  else .refused (.dutyRange d)

/-- The check of an operation that uses the PWM capability: `if RUN = 1 then raise Owner`
(R73, R84, R86, R129). `t` is the state it writes. -/
def owned (s t : State) : Except FaultCode State :=
  if s.run then .error .owner else .ok t

/-- A STARTUP operation: enabled when `FAULT = 0` (R81). The interrupt context "fully preempts the
normal context" (R50), so it stands wholly before or after an invocation (R81). -/
def startupOp (i : Instr) (s : State) (e : Except FaultCode State) : Result :=
  guarded i (decide (s.stage = .idle)) s (settle s e)

end Sys2Proof.Machine
end

