-- ==== Sys2Proof/Machine/Startup.lean ====
section
/-! DEFINITION. PUTP, ENABLE, LISTEN and IDLE (spec/41_startup_handoff.md). -/

namespace Sys2Proof.Machine

/-- PUTP (R82): `SlotPut(PSLOT, handle)`. -/
def execPutp (s : State) : Result :=
  startupOp .putp s ((slotPut s.pslot PwmHandle.mk).map fun S => { s with pslot := S })

/-- ENABLE (R84): `PWM_EN <- 1`. -/
def execEnable (s : State) : Result :=
  startupOp .enable s (owned s { s with pwmEn := true })

/-- LISTEN (R86): `UIE <- 1`. -/
def execListen (s : State) : Result :=
  startupOp .listen s (owned s { s with uie := true })

/-- IDLE (R88): "reads nothing and writes nothing". -/
def execIdle (s : State) : Result :=
  startupOp .idle s (.ok s)

end Sys2Proof.Machine
end

