-- ==== Sys2Proof/Machine/Table.lean ====
section
/-! DEFINITION. GETMAX and BUILD (spec/40_table_builder.md). -/

namespace Sys2Proof.Machine

/-- GETMAX (R73): hands `MAX_DUTY` to STARTUP and writes no state of the block; the result is kept in
the model's record `got` (log 9). -/
def execGetmax (s : State) : Result :=
  startupOp .getmax s (owned s { s with got := s.got ++ [s.cfg.maxDuty] })

/-- BUILD (R74): `SlotPut(TSLOT, t)` with `t = [Q(0), ..., Q(N)]`, the configuration's table (R77). -/
def execBuild (s : State) : Result :=
  startupOp .build s ((slotPut s.tslot s.cfg.table).map fun S => { s with tslot := S })

end Sys2Proof.Machine
end

