-- ==== Sys2Proof/Machine/Flags.lean ====
section
/-! DEFINITION. The status bits (spec/10_state.md R31): the pending flag's computation
(spec/42_tick_phase.md R91, R92), when TICK is enabled (R93), and the codes of formats H and F
(spec/30_encoding.md R62). The block has no arithmetic flags. -/

namespace Sys2Proof.Machine

/-- `UIF` after a UEV: `if UIE = 1 or LATCH_UNARMED then UIF <- 1` (R91). -/
def uifAfterEvent (s : State) : Bool :=
  if s.uie || s.cfg.latchUnarmed then true else s.uif

/-- The condition of TICK beside `FAULT = 0`: `UIF = 1` and `UIE = 1` (R93), and no invocation in
progress, since TICK "does not nest" (R140). -/
def tickEnabled (s : State) : Bool := decide (s.stage = .idle) && s.uif && s.uie

/-- Format H, the slot status (R62). -/
def slotStatus {α : Type} : Slot α → BitVec 2
  | .empty0 => 0b00#2
  | .full _ => 0b01#2
  | .taken => 0b10#2

/-- Format H read back, with the payload `v` where it is FULL; `0b11` is reserved (R62). -/
def slotOfStatus {α : Type} (v : α) (w : BitVec 2) : Option (Slot α) :=
  match w.toNat with
  | 0b00 => some .empty0
  | 0b01 => some (.full v)
  | 0b10 => some .taken
  | _ => none

/-- Format F, the value of `FAULT` (R62, R125). -/
def faultCode : FaultCode → BitVec 3
  | .noFault => 0#3
  | .slotEmpty => 1#3
  | .slotRewrite => 2#3
  | .owner => 3#3
  | .phaseRange => 4#3
  | .indexRange => 5#3

/-- Format F read back; 6 and 7 are reserved (R62). -/
def faultOfCode (w : BitVec 3) : Option FaultCode :=
  match w.toNat with
  | 0 => some .noFault
  | 1 => some .slotEmpty
  | 2 => some .slotRewrite
  | 3 => some .owner
  | 4 => some .phaseRange
  | 5 => some .indexRange
  | _ => none

/-- Both hand-off slots are FULL, the condition of CLAIM (R94). -/
def bothFull (s : State) : Bool :=
  match s.tslot, s.pslot with
  | .full _, .full _ => true
  | _, _ => false

end Sys2Proof.Machine
end

