-- ==== Sys2Proof/Machine/Operands.lean ====
section
/-! DEFINITION. The formats of the block's words (spec/30_encoding.md R57 to R62, spec/00_scope.md R9) and
the operands a sub-operation assembles from the phase value: the select code, the table index, the mux
output and the advanced phase (spec/43_fold_index_mux.md, spec/42_tick_phase.md). -/

namespace Sys2Proof.Machine

/-- `ceil(log2(m))` for `m >= 1`. -/
def ceilLog2 (m : Nat) : Nat := if m ≤ 1 then 0 else Nat.log2 (m - 1) + 1

/-- `PHASE_W = ceil(log2(4N + 1))` (R9). -/
def phaseW (n : Nat) : Nat := ceilLog2 (4 * n + 1)

/-- `IDX_W = ceil(log2(N + 1))` (R9). -/
def idxW (n : Nat) : Nat := ceilLog2 (n + 1)

/-- Format P, the phase word (R58). -/
def phaseWord (n i : Nat) : BitVec (phaseW n) := BitVec.ofNat _ i

/-- Format X, the index word (R60). -/
def indexWord (n j : Nat) : BitVec (idxW n) := BitVec.ofNat _ j

/-- Format V, the duty word (R61). -/
def dutyWord (c : Config) (d : Duty) : BitVec c.dutyW := BitVec.ofNat _ d

/-- Format S: `sel[2:0] = {zero, quad[1:0]}` (R59). -/
def selectCode (sel : Select) : BitVec 3 := BitVec.ofNat 3 ((if sel.zero then 4 else 0) + sel.quad.val)

/-- Format S read back; `0b101` and `0b111` are reserved and refused (R59, R68). -/
def selectOfCode (w : BitVec 3) : Option Select :=
  match w.toNat with
  | 0b000 => some ⟨false, 0⟩
  | 0b001 => some ⟨false, 1⟩
  | 0b010 => some ⟨false, 2⟩
  | 0b011 => some ⟨false, 3⟩
  | 0b100 => some ⟨true, 0⟩
  | 0b110 => some ⟨true, 2⟩
  | _ => none

/-- `quad` of QUAD: three comparisons with `N`, `2N`, `3N` (R107). For the illegal `i >= 4N` (R67), whose
`floor(i / N)` is no quadrant, it is the last alternative of the same pseudocode: DESIGN CHOICE, log 18. -/
def quadOf (n i : Nat) : Fin 4 :=
  if i < n then 0 else if i < 2 * n then 1 else if i < 3 * n then 2 else 3

/-- `zero` of QUAD (R107). -/
def zeroOf (n i : Nat) : Bool := decide (i = 0 ∨ i = 2 * n)

/-- QUAD's result (R107). -/
def selectOf (n i : Nat) : Select := ⟨zeroOf n i, quadOf n i⟩

/-- IDX's result: the four index expressions, "over the natural numbers" (R109). Where a subtraction
would go below 0, which "none" does "in its own quadrant", the spec states no result: a free value,
DESIGN CHOICE, log 18. -/
def indexOf (n i : Nat) (quad : Fin 4) : Nat :=
  match quad with
  | 0 => i
  | 1 => if i ≤ 2 * n then 2 * n - i else Config.freeIndex n i
  | 2 => if 2 * n ≤ i then i - 2 * n else Config.freeIndex n i
  | 3 => if i ≤ 4 * n then 4 * n - i else Config.freeIndex n i

/-- MUX's result (R113). -/
def muxOf (zero : Bool) (entry : Duty) : Duty := if zero then 0 else entry

/-- The value ADV stores: `if i + 1 = 4N then 0 else i + 1` (R97). -/
def advancedPhase (n i : Nat) : Nat := if i + 1 = 4 * n then 0 else i + 1

/-- `fold(T, i)`, the five cases of R105 literally (R106). For a table of `N + 1` entries and
`0 <= i < 4N` every entry it names exists (R120), so the 0 of `getD` is never read; for another table no
meaning reads it either, since the meanings read `TAB` by `tabRead`. "It has no meaning for `i >= 4N`": a
free value there, DESIGN CHOICE, log 18. -/
def fold (n : Nat) (T : QuarterTable) (i : Nat) : Duty :=
  if i = 0 ∨ i = 2 * n then 0
  else if i < n then T.getD i 0
  else if i < 2 * n then T.getD (2 * n - i) 0
  else if i < 3 * n then T.getD (i - 2 * n) 0
  else if i < 4 * n then T.getD (4 * n - i) 0
  else Config.freeDuty n i

end Sys2Proof.Machine
end

