-- ==== Sys2Proof/Machine/Fold.lean ====
section
/-! DEFINITION. FOLD with its stages QUAD, IDX, LUT, MUX, and SETD (spec/43_fold_index_mux.md). Inside
TICK they are the functions here and in Operands.lean; as steps of their own (the split form of R104,
log 1) each is enabled only when its predecessor has handed it its operands. -/

namespace Sys2Proof.Machine

/-- FOLD as its four stages (R105): QUAD, IDX, LUT, MUX. Its operand is a phase value `0 <= i < 4N`; for
`i >= 4N` it "has no meaning" (R106), and the duty is a free value: DESIGN CHOICE, log 18. -/
def foldStaged (s : State) (i : Nat) : Except FaultCode Duty :=
  let sel := selectOf s.cfg.n i
  if i < 4 * s.cfg.n then (tabRead s (indexOf s.cfg.n i sel.quad)).map (muxOf sel.zero)
  else .ok (Config.freeDuty s.cfg.n i)

/-- FOLD (R105), the second-last sub-operation of the invocation. -/
def execFold (s : State) : Result :=
  match s.stage with
  | .acked i => guarded .fold true s (settle s ((foldStaged s i).map fun d => { s with stage := .folded d }))
  | _ => guarded .fold false s (.next s)

/-- QUAD (R107). -/
def execQuad (s : State) : Result :=
  match s.stage with
  | .acked i => guarded .quad true s (.next { s with stage := .decoded i (selectOf s.cfg.n i) })
  | _ => guarded .quad false s (.next s)

/-- IDX (R109). -/
def execIdx (s : State) : Result :=
  match s.stage with
  | .decoded i sel =>
    guarded .idx true s (.next { s with stage := .indexed sel.zero (indexOf s.cfg.n i sel.quad) })
  | _ => guarded .idx false s (.next s)

/-- LUT (R111): `TabRead(idx)`. -/
def execLut (s : State) : Result :=
  match s.stage with
  | .indexed z j =>
    guarded .lut true s (settle s ((tabRead s j).map fun e => { s with stage := .looked z e }))
  | _ => guarded .lut false s (.next s)

/-- MUX (R113). -/
def execMux (s : State) : Result :=
  match s.stage with
  | .looked z e => guarded .mux true s (.next { s with stage := .folded (muxOf z e) })
  | _ => guarded .mux false s (.next s)

/-- SETD (R115), the last sub-operation: it ends the invocation (R139). -/
def execSetd (s : State) : Result :=
  match s.stage with
  | .folded d => guarded .setd true s (setDuty d { s with stage := .idle })
  | _ => guarded .setd false s (.next s)

end Sys2Proof.Machine
end

