-- ==== Sys2Proof/Machine/Tick.lean ====
section
/-! DEFINITION. UEV, TICK, CLAIM, ADV and ACK (spec/42_tick_phase.md). -/

namespace Sys2Proof.Machine

/-- UEV (R91, R92). Enabled when `FAULT = 0`, also between two sub-operations (R104). -/
def execUev (s : State) : Result :=
  guarded .uev true s (.next { s with uif := uifAfterEvent s })

/-- The effect of CLAIM (R94): both slots are taken, the table moves into `TAB`, `RUN <- 1`; SlotEmpty
if either slot is not FULL (R95). -/
def claimSlots (s : State) : Except FaultCode State :=
  match slotTake s.pslot, slotTake s.tslot with
  | .ok (_, p), .ok (t, q) => .ok { s with pslot := p, tslot := q, tab := t, run := true }
  | .error c, _ => .error c
  | _, .error c => .error c

/-- The effect of ADV (R97): hands over `PHASE` and advances it; PhaseRange if `PHASE >= 4N` (R98). -/
def advance (s : State) : Except FaultCode (Nat × State) :=
  if 4 * s.cfg.n ≤ s.phase then .error .phaseRange
  else .ok (s.phase, { s with phase := advancedPhase s.cfg.n s.phase })

/-- The effect of ACK (R101). -/
def acknowledge (s : State) : State := { s with uif := false }

/-- `if RUN = 0 then CLAIM` (R93). -/
def claimIfNeeded (s : State) : Except FaultCode State :=
  if s.run then .ok s else claimSlots s

/-- An invocation up to its duty write (R93): claim, ADV, ACK, FOLD. Answers the state before SETD and
the duty SETD is to write. -/
def invocation (s : State) : Except FaultCode (State × Duty) :=
  match claimIfNeeded s with
  | .error c => .error c
  | .ok s₁ =>
    match advance s₁ with
    | .error c => .error c
    | .ok (i, s₂) => (foldStaged (acknowledge s₂) i).map fun d => (acknowledge s₂, d)

/-- TICK (R93), one indivisible step: a fault of a sub-operation is raised from the state the TICK
began in, so that it "writes `FAULT` and nothing else". -/
def execTick (s : State) : Result :=
  guarded .tick (tickEnabled s) s
    (match invocation s with
     | .ok (t, d) => setDuty d t
     | .error c => raise c s)

/-- CLAIM as a step of its own (R94, R104), the first of the first invocation. "This claim must happen
at most once": with `RUN = 1` the slots are TAKEN and it raises SlotEmpty (U15), and were they both
FULL it would not be enabled. -/
def execClaim (s : State) : Result :=
  guarded .claim (tickEnabled s && !(s.run && bothFull s)) s
    (settle s ((claimSlots s).map fun t => { t with stage := .claimed }))

/-- Where ADV may stand: after CLAIM, or first in an invocation that needs no claim (R93). -/
def advEnabled (s : State) : Bool :=
  decide (s.stage = .claimed) || (tickEnabled s && s.run)

/-- ADV as a step of its own (R97, R104). -/
def execAdv (s : State) : Result :=
  guarded .adv (advEnabled s) s
    (settle s ((advance s).map fun r => { r.2 with stage := .advanced r.1 }))

/-- ACK as a step of its own (R101, R104). -/
def execAck (s : State) : Result :=
  match s.stage with
  | .advanced i => guarded .ack true s (.next { acknowledge s with stage := .acked i })
  | _ => guarded .ack false s (.next s)

end Sys2Proof.Machine
end

