-- ==== Sys2Proof/Machine/Dispatch.lean ====
section
/-! DEFINITION. One arm per operation of spec/opcode_table.json. -/

namespace Sys2Proof.Machine

def exec (i : Instr) (s : State) : Host.Outcome State Fault Refusal :=
  match i with
  | .idle => Sys2Proof.Machine.execIdle s
  | .getmax => Sys2Proof.Machine.execGetmax s
  | .build => Sys2Proof.Machine.execBuild s
  | .putp => Sys2Proof.Machine.execPutp s
  | .enable => Sys2Proof.Machine.execEnable s
  | .listen => Sys2Proof.Machine.execListen s
  | .uev => Sys2Proof.Machine.execUev s
  | .tick => Sys2Proof.Machine.execTick s
  | .claim => Sys2Proof.Machine.execClaim s
  | .adv => Sys2Proof.Machine.execAdv s
  | .ack => Sys2Proof.Machine.execAck s
  | .fold => Sys2Proof.Machine.execFold s
  | .quad => Sys2Proof.Machine.execQuad s
  | .idx => Sys2Proof.Machine.execIdx s
  | .lut => Sys2Proof.Machine.execLut s
  | .mux => Sys2Proof.Machine.execMux s
  | .setd => Sys2Proof.Machine.execSetd s

end Sys2Proof.Machine
end

