-- ==== Sys2Proof/Decode.lean ====
section
/-! DEFINITION. Operation words to operations and back (spec/30_encoding.md R64, R68), and the textual
syntax with its pseudo-operations (R71, R72). -/

namespace Sys2Proof

/-- The table of R64; the operation numbers it does not list are refused (R68). -/
def decode (w : OpWord) : Option Instr :=
  match w.toNat with
  | 0b00000 => some .idle
  | 0b00001 => some .getmax
  | 0b00010 => some .build
  | 0b00011 => some .putp
  | 0b00100 => some .enable
  | 0b00101 => some .listen
  | 0b00110 => some .uev
  | 0b00111 => some .tick
  | 0b10000 => some .claim
  | 0b10001 => some .adv
  | 0b10010 => some .ack
  | 0b10011 => some .fold
  | 0b10100 => some .quad
  | 0b10101 => some .idx
  | 0b10110 => some .lut
  | 0b10111 => some .mux
  | 0b11000 => some .setd
  | _ => none

/-- "an operation word is its `OPN` alone" (R65), the column OPN of R64. -/
def encode : Instr → OpWord
  | .idle   => 0b00000#5
  | .getmax => 0b00001#5
  | .build  => 0b00010#5
  | .putp   => 0b00011#5
  | .enable => 0b00100#5
  | .listen => 0b00101#5
  | .uev    => 0b00110#5
  | .tick   => 0b00111#5
  | .claim  => 0b10000#5
  | .adv    => 0b10001#5
  | .ack    => 0b10010#5
  | .fold   => 0b10011#5
  | .quad   => 0b10100#5
  | .idx    => 0b10101#5
  | .lut    => 0b10110#5
  | .mux    => 0b10111#5
  | .setd   => 0b11000#5

/-- The 5-bit word that the table's number `w` of `nbits` bits is, if it is one: an operation word
"is always 5 bits" (R70). -/
def opWordOfNat (nbits w : Nat) : Option OpWord :=
  if w % 2 ^ nbits < 2 ^ 5 then some (BitVec.ofNat 5 (w % 2 ^ nbits)) else none

/-- The operation of a word of the table, numbered as the table numbers it. -/
def decodeTableWord (nbits w : Nat) : Option Instr :=
  (opWordOfNat nbits w).bind decode

/-- A list of words as a list of operations, refused if one word is. -/
def decodeAll : List OpWord → Option (List Instr)
  | [] => some []
  | w :: ws =>
    match decode w, decodeAll ws with
    | some i, some l => some (i :: l)
    | _, _ => none

/-- The canonical start-up order, the pseudo-operation `STARTUP` (R72, spec/70_reset_and_hazards.md R153). -/
def canonicalStartup : List Instr := [.getmax, .build, .putp, .enable, .listen, .idle]

/-- One line of a program text: a mnemonic or a pseudo-operation (R71, R72). -/
inductive Line where
  | op (i : Instr)
  | startup
  | event
  | events (k : Nat)
  deriving DecidableEq, Repr

/-- `EVENTS k` (R72). -/
def eventsExpansion : Nat → List Instr
  | 0 => []
  | k + 1 => .uev :: .tick :: eventsExpansion k

/-- The expansions of R72. -/
def Line.expand : Line → List Instr
  | .op i => [i]
  | .startup => canonicalStartup
  | .event => [.uev, .tick]
  | .events k => eventsExpansion k

/-- A program text as the operation words of its run, in order (R71). -/
def assemble (p : List Line) : List OpWord := (p.flatMap Line.expand).map encode

/-- The mnemonics of R64, upper case (R71). -/
def Instr.mnemonic : Instr → String
  | .idle => "IDLE" | .getmax => "GETMAX" | .build => "BUILD" | .putp => "PUTP"
  | .enable => "ENABLE" | .listen => "LISTEN" | .uev => "UEV" | .tick => "TICK"
  | .claim => "CLAIM" | .adv => "ADV" | .ack => "ACK" | .fold => "FOLD" | .quad => "QUAD"
  | .idx => "IDX" | .lut => "LUT" | .mux => "MUX" | .setd => "SETD"

/-- The seventeen operations in the order of R64. -/
def Instr.all : List Instr :=
  [.idle, .getmax, .build, .putp, .enable, .listen, .uev, .tick, .claim, .adv, .ack, .fold, .quad,
   .idx, .lut, .mux, .setd]

/-- The operation a line's mnemonic names (R71). -/
def Instr.ofMnemonic (m : String) : Option Instr := Instr.all.find? (·.mnemonic == m)

/-- The words of a line of text, without its comment: "`;` opening a comment" (R71). That blanks, any
number of them, separate words and may stand around them is a DESIGN CHOICE, log 17. -/
def textWords (line : List Char) : List (List Char) :=
  ((line.takeWhile (· != ';')).foldr (fun c ws =>
    if c == ' ' then [] :: ws
    else match ws with
      | w :: rest => (c :: w) :: rest
      | [] => [[c]]) [[]]).filter (· != [])

/-- The count of `EVENTS <k>`. R71 and R72 say no radix for a program text, and R11's decimal, `0x..` and
`0b..` are the notation of the spec's own text: that the count is written in decimal digits only, and a
`0x..` or `0b..` there is no program text, is a DESIGN CHOICE, log 17. -/
def decimalOf (w : List Char) : Option Nat :=
  if w != [] && w.all (fun c => decide ('0' ≤ c ∧ c ≤ '9')) then
    some (w.foldl (fun n c => 10 * n + (c.toNat - '0'.toNat)) 0)
  else none

/-- The line a line of text stands for (R71, R72): none for an empty or comment line, an error (`none`
outside) for any other text. -/
def parseLine (line : List Char) : Option (Option Line) :=
  match textWords line with
  | [] => some none
  | [w] =>
    if w == "STARTUP".toList then some (some .startup)
    else if w == "EVENT".toList then some (some .event)
    else (Instr.all.find? (fun i => i.mnemonic.toList == w)).map fun i => some (.op i)
  | [w, k] => if w == "EVENTS".toList then (decimalOf k).map fun n => some (.events n) else none
  | _ => none

end Sys2Proof
end

