-- ==== Sys2Proof/Machine/Schedule.lean ====
section
/-! DEFINITION. Which operation the machine performs next. The block "fetches no instructions"
(spec/10_state.md R18): a run is a sequence of operations (spec/20_memory.md R51), held in `sched` as the
words still to be performed, the agents interleaved as R71 writes them (log 2). -/

namespace Sys2Proof.Machine

/-- The sub-operation an invocation in progress performs next, in the fixed order of R18. -/
def nextSubOperation : Stage → Option Instr
  | .idle => none
  | .claimed => some .adv
  | .advanced _ => some .ack
  | .acked _ => some .fold
  | .decoded _ _ => some .idx
  | .indexed _ _ => some .lut
  | .looked _ _ => some .mux
  | .folded _ => some .setd

/-- The operation when nothing is scheduled: the invocation in progress runs "to completion" (R139);
else DRIVER performs TICK "whenever TICK is enabled" (R18); else STARTUP is parked in IDLE (R88). -/
def unscheduledOp (s : State) : Instr :=
  match nextSubOperation s.stage with
  | some i => i
  | none => if tickEnabled s then .tick else .idle

/-- The next operation and the state with it taken off the schedule, or the reserved word that stands
there (R68). -/
def nextOperation (s : State) : Except OpWord (Instr × State) :=
  match s.sched with
  | [] => .ok (unscheduledOp s, s)
  | w :: rest =>
    match decode w with
    | some i => .ok (i, { s with sched := rest })
    | none => .error w

/-- The entry LUT hands to MUX for index `j` (R111, R113). Where LUT would fault, and so hand on nothing, a
free value: DESIGN CHOICE, log 19. -/
def placedEntry (s : State) (j : Nat) : Duty := (tabRead s j).toOption.getD (Config.freeEntry j)

/-- The duty MUX hands to SETD for the present `PHASE` (R113, R115). Where LUT would fault, a free value:
DESIGN CHOICE, log 19. -/
def placedDuty (s : State) : Duty :=
  (foldStaged s s.phase).toOption.getD
    (Config.freeEntry (indexOf s.cfg.n s.phase (quadOf s.cfg.n s.phase)))

/-- The state in which `i` is the operation that is selected next: DRIVER's operations are not chosen
by a program but by the pending, armed event (R93) and, inside an invocation, by their predecessor,
which hands them their operands (R93, R104). The operands are those of the present `PHASE`, log 3; for a
`PHASE` of `4N` or more they are as log 18 says, and where `TAB` has no entry for it as log 19 says. -/
def placeOperation (i : Instr) (s : State) : State :=
  let sel := selectOf s.cfg.n s.phase
  let j := indexOf s.cfg.n s.phase sel.quad
  match i with
  | .tick | .claim => { s with stage := .idle, uif := true, uie := true }
  | .adv => { s with stage := .claimed }
  | .ack => { s with stage := .advanced s.phase }
  | .fold | .quad => { s with stage := .acked s.phase }
  | .idx => { s with stage := .decoded s.phase sel }
  | .lut => { s with stage := .indexed sel.zero j }
  | .mux => { s with stage := .looked sel.zero (placedEntry s j) }
  | .setd => { s with stage := .folded (placedDuty s) }
  | .idle | .getmax | .build | .putp | .enable | .listen | .uev => { s with stage := .idle }

/-- `s` with the table's word `w` of `nbits` bits scheduled first. A number that is no operation word
is scheduled as a reserved word, which `step` refuses as the decoder does (R68). -/
def scheduleWord (s : State) (nbits w : Nat) : State :=
  match opWordOfNat nbits w with
  | none => { s with sched := 0b11111#5 :: s.sched }
  | some v =>
    match decode v with
    | some i => { placeOperation i s with sched := v :: s.sched }
    | none => { s with sched := v :: s.sched }

end Sys2Proof.Machine
end

