-- ==== Sys2Proof/Machine/Step.lean ====
section
/-! DEFINITION. One step of the machine: one whole operation (spec/20_memory.md R50). -/

namespace Sys2Proof.Machine

/-- An invalid configuration is "refused before any step" (R79, R131); else the next operation of the
run is performed. -/
def step (s : State) : Host.Outcome State Fault Refusal :=
  if s.cfg.wf then
    match nextOperation s with
    | .ok (i, t) => exec i t
    | .error w => .refused (.reservedWord w)
  else .refused .badConfig

/-- `s` with the operation whose word is `w` selected as its next (log 3): for STARTUP's and TIMER's
operations the word is put first on the schedule; for DRIVER's the event or the stage that selects
them is set as well. -/
def State.withFetchWord (s : State) (nbits w : Nat) : State := scheduleWord s nbits w

end Sys2Proof.Machine
end

