-- ==== Sys2Proof/Safety.lean ====
section
/-! DEFINITION. The terms claims are stated in: runs of operations, the waveform, the invariant of
spec/10_state.md section 9, start-up schedules (spec/70_reset_and_hazards.md R154), the sine table over
the reals (spec/40_table_builder.md R75) and the driver's arithmetic at a fixed width
(spec/43_fold_index_mux.md R121). -/

namespace Sys2Proof.Machine

/-! ### Runs -/

/-- The operations of a list performed in order, up to the first stop (R51). -/
def execAll : List Instr → State → Result
  | [], s => .next s
  | i :: l, s =>
    match exec i s with
    | .next t => execAll l t
    | .fault r => .fault r
    | .refused r => .refused r

/-- The sub-operations of a TICK in the order of R93, FOLD in one piece. `run` is `RUN` when the TICK
begins. -/
def tickOps (run : Bool) : List Instr :=
  (if run then [] else [.claim]) ++ [.adv, .ack, .fold, .setd]

/-- The same with FOLD as its four stages (R105). -/
def tickStageOps (run : Bool) : List Instr :=
  (if run then [] else [.claim]) ++ [.adv, .ack, .quad, .idx, .lut, .mux, .setd]

/-- What STARTUP issues in a run: its program, "in STARTUP's program order" (R51). -/
def startupPart (l : List Instr) : List Instr := l.filter (·.agent = .startup)

/-- The cause of an IndexRange (R125): the index is above `N`, or `TAB` is too short for it (log 12). -/
def entryMissing (s : State) (j : Nat) : Prop := s.cfg.n < j ∨ s.tab.length ≤ j

/-- The state an outcome leads to, changed by `f`. -/
def mapState (f : State → State) : Result → Result
  | .next t => .next (f t)
  | .fault r => .fault r
  | .refused r => .refused r

/-! ### The waveform -/

/-- The first `k` duties of the waveform: the k-th folds `(k - 1) mod 4N` (R100). -/
def waveform (c : Config) (k : Nat) : List Duty :=
  (List.range k).map fun j => fold c.n c.table (j % (4 * c.n))

/-- One half period of the duty sequence: `0, T[1], ..., T[N-1], T[N], T[N-1], ..., T[1]` (R122). -/
def halfPeriod (T : QuarterTable) : List Duty :=
  0 :: (T.drop 1 ++ ((T.drop 1).dropLast).reverse)

/-! ### The invariant -/

/-- `PHASE` and the transients of a split invocation, when `k` duties have been written: the invocation
in progress, or the next one, folds `k mod 4N` (R40, R100). -/
def positionOk (s : State) : Prop :=
  let n := s.cfg.n
  let i := s.out.length % (4 * n)
  let after := (s.out.length + 1) % (4 * n)
  match s.stage with
  | .idle => s.phase = i
  | .claimed => s.phase = i
  | .advanced i' => i' = i ∧ s.phase = after
  | .acked i' => i' = i ∧ s.phase = after
  | .decoded i' sel => i' = i ∧ sel = selectOf n i ∧ s.phase = after
  | .indexed z j => z = zeroOf n i ∧ j = indexOf n i (quadOf n i) ∧ s.phase = after
  | .looked z e =>
    z = zeroOf n i ∧ s.tab[indexOf n i (quadOf n i)]? = some e ∧ s.phase = after
  | .folded d => d = fold n s.tab i ∧ s.phase = after

/-- The invariant of every reachable state (R35 to R40, R130). -/
structure StateInv (s : State) : Prop where
  /-- The configuration has runs (R131). -/
  config : s.cfg.wf = true
  /-- `TAB` has `N + 1` entries (R21). -/
  tabLength : s.tab.length = s.cfg.n + 1
  /-- `RUN = 1` iff `TSLOT = TAKEN` (R36). -/
  tslotTaken : s.run = true ↔ s.tslot = .taken
  /-- `RUN = 1` iff `PSLOT = TAKEN` (R36). -/
  pslotTaken : s.run = true ↔ s.pslot = .taken
  /-- BUILD is the only writer of a table (R37). -/
  slotTable : ∀ t, s.tslot = .full t → t = s.cfg.table
  /-- While `RUN = 1`, `TAB` is the table BUILD made (R37). -/
  claimedTable : s.run = true → s.tab = s.cfg.table
  /-- The first invocation needs `UIE = 1` (R93), and nothing clears it (R39). -/
  armed : s.run = true → s.uie = true
  /-- A split invocation goes on only after the claim (R93). -/
  claimedFirst : s.stage ≠ .idle → s.run = true
  /-- Duties are written only after the claim (R93). -/
  writtenAfterClaim : s.out ≠ [] → s.run = true
  /-- `PHASE = k mod 4N` after `k` duties, and the transients belong to it (R40, R100). -/
  position : positionOk s
  /-- The duties written are the waveform's (R100, R105). -/
  output : s.out = waveform s.cfg s.out.length
  /-- `DUTY` is the last duty written (R115). -/
  lastDuty : ∀ d, s.out.getLast? = some d → s.duty = d
  /-- GETMAX "always returns the same constant" (R73). -/
  results : ∀ m ∈ s.got, m = s.cfg.maxDuty
  /-- PhaseRange and IndexRange are unreachable (R130). -/
  faults : s.fault ≠ .phaseRange ∧ s.fault ≠ .indexRange

/-! ### The sine table -/

/-- `Q(i) = floor(sin(i * (pi / 2) / N) * MAX_DUTY + 1/2)` in exact real arithmetic (R75, R13). -/
noncomputable def sineEntry (n maxDuty i : ℕ) : ℕ :=
  ⌊Real.sin (i * (Real.pi / 2) / n) * maxDuty + 1 / 2⌋₊

/-- The configuration's table is the one R75 defines, entry by entry. -/
def sineTable (c : Config) : Prop :=
  c.table = (List.range (c.n + 1)).map (sineEntry c.n c.maxDuty)

/-! ### The driver's arithmetic in `w`-bit unsigned words -/

/-- ADV's stored value at width `w` (R97, R121). -/
def advancedPhaseBits {w : Nat} (n : Nat) (i : BitVec w) : BitVec w :=
  if i + 1 = BitVec.ofNat w (4 * n) then 0 else i + 1

/-- QUAD's comparisons at width `w` (R107, R121). -/
def quadBits {w : Nat} (n : Nat) (i : BitVec w) : Fin 4 :=
  if i < BitVec.ofNat w n then 0
  else if i < BitVec.ofNat w (2 * n) then 1
  else if i < BitVec.ofNat w (3 * n) then 2 else 3

/-- QUAD's two tests for `zero` at width `w` (R107, R121). -/
def zeroBits {w : Nat} (n : Nat) (i : BitVec w) : Bool := decide (i = 0 ∨ i = BitVec.ofNat w (2 * n))

/-- QUAD's result at width `w` (R107, R121). -/
def selectBits {w : Nat} (n : Nat) (i : BitVec w) : Select := ⟨zeroBits n i, quadBits n i⟩

/-- IDX's subtractor at width `w` (R109, R121). -/
def indexBits {w : Nat} (n : Nat) (i : BitVec w) (quad : Fin 4) : BitVec w :=
  match quad with
  | 0 => i
  | 1 => BitVec.ofNat w (2 * n) - i
  | 2 => i - BitVec.ofNat w (2 * n)
  | 3 => BitVec.ofNat w (4 * n) - i

end Sys2Proof.Machine
end

