-- ==== Sys2Proof/Certificates/Slice0/Obligations.lean ====
section
/-! DEFINITION. The statements for the provers. `s.stage = .idle` says that no split invocation is in
progress, which in the spec's own machine, where TICK is one step, is always so (log 1). -/

open Sys2Proof Sys2Proof.Machine

/-! ## Operation words, schedule and step -/

/-- The table of R64: each listed operation number decodes to its operation, with its agent. -/
def Obligations.TableWordsDecode : Prop :=
  (decode 0b00000#5 = some .idle ∧ Instr.idle.agent = .startup) ∧
  (decode 0b00001#5 = some .getmax ∧ Instr.getmax.agent = .startup) ∧
  (decode 0b00010#5 = some .build ∧ Instr.build.agent = .startup) ∧
  (decode 0b00011#5 = some .putp ∧ Instr.putp.agent = .startup) ∧
  (decode 0b00100#5 = some .enable ∧ Instr.enable.agent = .startup) ∧
  (decode 0b00101#5 = some .listen ∧ Instr.listen.agent = .startup) ∧
  (decode 0b00110#5 = some .uev ∧ Instr.uev.agent = .timer) ∧
  (decode 0b00111#5 = some .tick ∧ Instr.tick.agent = .driver) ∧
  (decode 0b10000#5 = some .claim ∧ Instr.claim.agent = .driver) ∧
  (decode 0b10001#5 = some .adv ∧ Instr.adv.agent = .driver) ∧
  (decode 0b10010#5 = some .ack ∧ Instr.ack.agent = .driver) ∧
  (decode 0b10011#5 = some .fold ∧ Instr.fold.agent = .driver) ∧
  (decode 0b10100#5 = some .quad ∧ Instr.quad.agent = .driver) ∧
  (decode 0b10101#5 = some .idx ∧ Instr.idx.agent = .driver) ∧
  (decode 0b10110#5 = some .lut ∧ Instr.lut.agent = .driver) ∧
  (decode 0b10111#5 = some .mux ∧ Instr.mux.agent = .driver) ∧
  (decode 0b11000#5 = some .setd ∧ Instr.setd.agent = .driver) ∧
  ∀ i : Instr, i.schedulable = true ↔ (encode i).getLsbD 4 = false

/-- The reserved words of R68: operation numbers, select codes, slot status and fault codes are
refused by their decoders, and nothing produces them. The slot status and fault codes in use are the
numbers of R62 and R125 (the select codes' are in SelectCodeByRange). -/
def Obligations.ReservedWordsRefused : Prop :=
  (∀ w : OpWord, (0b01000 ≤ w.toNat ∧ w.toNat ≤ 0b01111 ∨ 0b11001 ≤ w.toNat) ↔ decode w = none) ∧
  (∀ i, decode (encode i) ≠ none) ∧
  (∀ w : BitVec 3, (w = 0b101#3 ∨ w = 0b111#3) ↔ selectOfCode w = none) ∧
  (∀ n i, selectOfCode (selectCode (selectOf (n + 1) i)) = some (selectOf (n + 1) i)) ∧
  (∀ w : BitVec 2, w = 0b11#2 ↔ slotOfStatus PwmHandle.mk w = none) ∧
  (∀ S : Slot PwmHandle, slotOfStatus PwmHandle.mk (slotStatus S) = some S) ∧
  (∀ {α : Type} (v : α), slotStatus (.empty0 : Slot α) = 0b00#2 ∧ slotStatus (.full v) = 0b01#2 ∧
    slotStatus (.taken : Slot α) = 0b10#2) ∧
  (∀ w : BitVec 3, (w = 6#3 ∨ w = 7#3) ↔ faultOfCode w = none) ∧
  (∀ c, faultOfCode (faultCode c) = some c) ∧
  faultCode .noFault = 0#3 ∧ faultCode .slotEmpty = 1#3 ∧ faultCode .slotRewrite = 2#3 ∧
  faultCode .owner = 3#3 ∧ faultCode .phaseRange = 4#3 ∧ faultCode .indexRange = 5#3

/-- Decoding and encoding agree, both ways, on every operation and every word. -/
def Obligations.DecodeEncodeAgree : Prop :=
  (∀ i, decode (encode i) = some i) ∧ (∀ w i, decode w = some i → encode i = w) ∧
  ∀ nbits w, decodeTableWord nbits w = none ∨
    ∃ i, decodeTableWord nbits w = some i ∧ (encode i).toNat = w % 2 ^ nbits

/-- Assembling a program text and decoding the words gives the run of its expansions (R71, R72), and a
run's words are the only ones that decode to it. -/
def Obligations.AssembledTextDecodesToItsRun : Prop :=
  (∀ p : List Line, decodeAll (assemble p) = some (p.flatMap Line.expand)) ∧
  (∀ ws l, decodeAll ws = some l → l.map encode = ws) ∧
  (∀ k, decodeAll (assemble [.events k]) = some ((List.replicate k [Instr.uev, .tick]).flatten))

/-- A step performs the operation whose word stands first on the schedule, with the word taken off;
with nothing scheduled, the invocation in progress goes on, else an enabled TICK runs, else IDLE
(log 2); a reserved word and an invalid configuration are refused. -/
def Obligations.StepRunsScheduledOperation : Prop :=
  ∀ s : State,
    (∀ w rest i, s.cfg.wf = true → s.sched = w :: rest → decode w = some i →
      step s = exec i { s with sched := rest }) ∧
    (∀ w rest, s.cfg.wf = true → s.sched = w :: rest → decode w = none →
      step s = .refused (.reservedWord w)) ∧
    (s.cfg.wf = true → s.sched = [] →
      step s = exec (match s.stage with
        | .idle => if s.uif = true ∧ s.uie = true then .tick else .idle
        | .claimed => .adv
        | .advanced _ => .ack
        | .acked _ => .fold
        | .decoded _ _ => .idx
        | .indexed _ _ => .lut
        | .looked _ _ => .mux
        | .folded _ => .setd) s) ∧
    (s.cfg.wf = false → step s = .refused .badConfig)

/-- A configuration is refused exactly when a parameter is invalid, which R131 (b) says, or when its table
has not `N + 1` entries with the properties of R78, which is the model's choice: R77 only assumes them
(and the distance of at most 1/2 from the sine, which is not checked): log 5, DEDUCED. -/
def Obligations.ConfigurationRefusedIffInvalid : Prop :=
  ∀ c : Config, c.wf = true ↔
    1 ≤ c.n ∧ 0 < c.maxDuty ∧ c.maxDuty < 2 ^ c.dutyW ∧ c.table.length = c.n + 1 ∧
    c.table[0]? = some 0 ∧ c.table[c.n]? = some c.maxDuty ∧
    (∀ j, j < c.n → c.table.getD j 0 ≤ c.table.getD (j + 1) 0) ∧
    ∀ d ∈ c.table, d ≤ c.maxDuty

/-- Placing an operation's word (log 3) makes the next step perform exactly that operation, in a state
that differs only in what selects it: `stage`, `UIF` and `UIE` for DRIVER's, `stage` for the others.
Before the claim the operation is then enabled wherever no fault is recorded. -/
def Obligations.PlacedWordRunsNext : Prop :=
  ∀ (s : State) (i : Instr), s.cfg.wf = true →
    step (s.withFetchWord 8 (encode i).toNat) = exec i (placeOperation i s) ∧
    placeOperation i s = { s with
      stage := (placeOperation i s).stage
      uif := (placeOperation i s).uif
      uie := (placeOperation i s).uie } ∧
    (i.agent ≠ .driver → (placeOperation i s).stage = .idle) ∧
    (i ≠ .tick → i ≠ .claim →
      (placeOperation i s).uif = s.uif ∧ (placeOperation i s).uie = s.uie) ∧
    (s.fault = .noFault → s.run = false →
      exec i (placeOperation i s) ≠ .refused (.notEnabled i))

/-- Reset (R147): every element whose value the table gives has it, whatever the configuration. -/
def Obligations.ResetState : Prop :=
  (∀ c : Config,
    (State.resetWith c).phase = 0 ∧ (State.resetWith c).run = false ∧
    (State.resetWith c).tslot = .empty0 ∧ (State.resetWith c).pslot = .empty0 ∧
    (State.resetWith c).uif = false ∧ (State.resetWith c).uie = false ∧
    (State.resetWith c).pwmEn = false ∧ faultCode (State.resetWith c).fault = 0#3 ∧
    (State.resetWith c).out = [] ∧ (State.resetWith c).cfg = c) ∧
  ∃ c, State.reset = State.resetWith c

/-! ## The primitives -/

/-- `TabRead(j)` (R42): with `RUN = 1`, entry `j` for `j <= N`; IndexRange above `N`. It answers a value,
not a state: it changes nothing. -/
def Obligations.TabReadReturnsEntry : Prop :=
  ∀ (s : State) (j : Nat), s.tab.length = s.cfg.n + 1 →
    (s.run = true → j ≤ s.cfg.n → ∃ h : j < s.tab.length, tabRead s j = .ok s.tab[j]) ∧
    (s.cfg.n < j → tabRead s j = .error .indexRange)

/-- `SlotPut(S, v)` (R43) and `SlotTake(S)` (R44), for a slot of any payload, so for `TSLOT` and `PSLOT`;
a second put raises SlotRewrite, a second take finds the slot TAKEN and raises SlotEmpty. -/
def Obligations.SlotsArePutAndTakenOnce : Prop :=
  ∀ {α : Type} (S : Slot α) (v : α),
    (S = .empty0 → slotPut S v = .ok (.full v)) ∧
    (S ≠ .empty0 → slotPut S v = .error .slotRewrite) ∧
    (S = .full v → slotTake S = .ok (v, .taken)) ∧
    ((∀ u, S ≠ .full u) → slotTake S = .error .slotEmpty) ∧
    (∀ S', slotTake S = .ok (v, S') →
      slotTake S' = .error .slotEmpty ∧ slotPut S' v = .error .slotRewrite)

/-! ## STARTUP's and TIMER's operations -/

/-- GETMAX (R73): the result `MAX_DUTY` is handed over (kept in the record `got`, log 9), no state of
the block is written; Owner when `RUN = 1`. -/
def Obligations.GetmaxReturnsMaxDuty : Prop :=
  encode .getmax = 0b00001#5 ∧
  ∀ s : State, s.fault = .noFault → s.stage = .idle →
    (s.run = false → exec .getmax s = .next { s with got := s.got ++ [s.cfg.maxDuty] }) ∧
    (s.run = true → exec .getmax s = .next { s with fault := .owner })

/-- BUILD (R74): the configuration's table (R77, log 5) goes into the empty slot whatever `UIE` and `UIF` are, and nothing else
changes; SlotRewrite when the slot is not EMPTY0. Under a configuration whose table is that of R75
(`sineTable`, log 5), entry `i` is `round(sin(i * (pi/2) / N) * MAX_DUTY)`. -/
def Obligations.BuildFillsTableSlot : Prop :=
  encode .build = 0b00010#5 ∧
  ∀ s : State, s.fault = .noFault → s.stage = .idle →
    (s.tslot = .empty0 → exec .build s = .next { s with tslot := .full s.cfg.table }) ∧
    (s.tslot = .empty0 → sineTable s.cfg →
      exec .build s = .next { s with
        tslot := .full ((List.range (s.cfg.n + 1)).map (sineEntry s.cfg.n s.cfg.maxDuty)) }) ∧
    (s.tslot ≠ .empty0 → exec .build s = .next { s with fault := .slotRewrite })

/-- PUTP (R82). -/
def Obligations.PutpFillsHandleSlot : Prop :=
  encode .putp = 0b00011#5 ∧
  ∀ s : State, s.fault = .noFault → s.stage = .idle →
    (s.pslot = .empty0 → exec .putp s = .next { s with pslot := .full PwmHandle.mk }) ∧
    (s.pslot ≠ .empty0 → exec .putp s = .next { s with fault := .slotRewrite })

/-- ENABLE (R84): accepted while `RUN = 0` whatever `PSLOT` is; Owner when `RUN = 1`. -/
def Obligations.EnableSetsPwmEn : Prop :=
  encode .enable = 0b00100#5 ∧
  ∀ s : State, s.fault = .noFault → s.stage = .idle →
    (s.run = false → exec .enable s = .next { s with pwmEn := true }) ∧
    (s.run = true → exec .enable s = .next { s with fault := .owner })

/-- LISTEN (R86): sets `UIE`, whatever the slots and `UIF` are; TICK becomes enabled at once if `UIF` is
already 1; Owner when `RUN = 1`. -/
def Obligations.ListenArmsInterrupt : Prop :=
  encode .listen = 0b00101#5 ∧
  ∀ s : State, s.fault = .noFault → s.stage = .idle →
    (s.run = false → exec .listen s = .next { s with uie := true }) ∧
    (s.run = false → (tickEnabled { s with uie := true } = true ↔ s.uif = true)) ∧
    (s.run = true → exec .listen s = .next { s with fault := .owner })

/-- IDLE (R88): it leaves any state as it is; in a run "any number of IDLE steps between other steps"
can be left out; and from STARTUP's first IDLE on, after which it issues nothing but IDLE
(`parkedAfterIdle`), what a run does is what TIMER's and DRIVER's operations in it do. -/
def Obligations.IdleChangesNothing : Prop :=
  encode .idle = 0b00000#5 ∧
  ∀ s : State, s.fault = .noFault → s.stage = .idle →
    exec .idle s = .next s ∧ (∀ k, execAll (List.replicate k .idle) s = .next s) ∧
    (∀ l t, execAll l s = .next t → execAll (l.filter (· ≠ .idle)) s = .next t) ∧
    ∀ l t, parkedAfterIdle (startupPart (.idle :: l)) = true → execAll (.idle :: l) s = .next t →
      execAll (l.filter (·.agent ≠ .startup)) s = .next t

/-- UEV (R91): `if UIE = 1 or LATCH_UNARMED then UIF <- 1`, nothing else; a UEV while `UIF = 1` leaves it
1. -/
def Obligations.EventSetsPendingFlag : Prop :=
  encode .uev = 0b00110#5 ∧
  ∀ s : State, s.fault = .noFault →
    (s.uie = true ∨ s.cfg.latchUnarmed = true → exec .uev s = .next { s with uif := true }) ∧
    (s.uif = true → exec .uev s = .next s) ∧
    (s.uie = false → s.cfg.latchUnarmed = false → exec .uev s = .next s)

/-- A UEV before LISTEN (R92): with `LATCH_UNARMED` the LISTEN after it enables a TICK, without it the
event is dropped; both values of the parameter. -/
def Obligations.UnarmedEventByParameter : Prop :=
  ∀ s : State, s.fault = .noFault → s.stage = .idle → s.run = false → s.uie = false → s.uif = false →
    ∃ t, execAll [.uev, .listen] s = .next t ∧ t.uif = s.cfg.latchUnarmed ∧ t.uie = true ∧
      tickEnabled t = s.cfg.latchUnarmed ∧
      t = { s with uif := s.cfg.latchUnarmed, uie := true }

/-! ## TICK -/

/-- A TICK of a running driver (R93): the phase value it begins with is folded by the five cases of R105
and written, the phase advances, the event is acknowledged, and nothing else changes. -/
def Obligations.TickWritesFoldedDuty : Prop :=
  ∀ s : State, s.fault = .noFault → s.stage = .idle → s.uif = true → s.uie = true → s.run = true →
    s.phase < 4 * s.cfg.n → s.tab.length = s.cfg.n + 1 → (∀ d ∈ s.tab, d ≤ s.cfg.maxDuty) →
    exec .tick s = .next { s with
      phase := (s.phase + 1) % (4 * s.cfg.n)
      uif := false
      duty := fold s.cfg.n s.tab s.phase
      out := s.out ++ [fold s.cfg.n s.tab s.phase] }

/-- The duty a TICK writes, by the five cases of R105 with `i` the phase value it begins with and the
claimed table; FOLD itself writes no state and raises no fault. -/
def Obligations.TickDutyByFiveCases : Prop :=
  encode .fold = 0b10011#5 ∧
  ∀ s : State, s.fault = .noFault → s.stage = .idle → s.uif = true → s.uie = true → s.run = true →
    s.phase < 4 * s.cfg.n → s.tab.length = s.cfg.n + 1 → (∀ d ∈ s.tab, d ≤ s.cfg.maxDuty) →
    ∃ t d, exec .tick s = .next t ∧ t.duty = d ∧ t.out = s.out ++ [d] ∧ t.fault = .noFault ∧
      t.tab = s.tab ∧
      (s.phase = 0 ∨ s.phase = 2 * s.cfg.n → d = 0) ∧
      (0 < s.phase ∧ s.phase < s.cfg.n → s.tab[s.phase]? = some d) ∧
      (s.cfg.n ≤ s.phase ∧ s.phase < 2 * s.cfg.n → s.tab[2 * s.cfg.n - s.phase]? = some d) ∧
      (2 * s.cfg.n < s.phase ∧ s.phase < 3 * s.cfg.n → s.tab[s.phase - 2 * s.cfg.n]? = some d) ∧
      (3 * s.cfg.n ≤ s.phase ∧ s.phase < 4 * s.cfg.n → s.tab[4 * s.cfg.n - s.phase]? = some d)

/-- The first TICK (R93, R94): it claims both slots and then runs the whole algorithm on the claimed
table, so it too writes a duty. -/
def Obligations.FirstTickClaimsAndWrites : Prop :=
  ∀ (s : State) (T : QuarterTable),
    s.fault = .noFault → s.stage = .idle → s.uif = true → s.uie = true → s.run = false →
    s.tslot = .full T → s.pslot = .full PwmHandle.mk →
    s.phase < 4 * s.cfg.n → T.length = s.cfg.n + 1 → (∀ d ∈ T, d ≤ s.cfg.maxDuty) →
    exec .tick s = .next { s with
      run := true
      tab := T
      tslot := .taken
      pslot := .taken
      phase := (s.phase + 1) % (4 * s.cfg.n)
      uif := false
      duty := fold s.cfg.n T s.phase
      out := s.out ++ [fold s.cfg.n T s.phase] }

/-- A first TICK that finds a slot not FULL (R95): SlotEmpty is recorded and nothing else changes:
neither slot is taken, `RUN` stays 0, `UIF` stays 1; after it no operation is enabled. -/
def Obligations.EarlyTickRaisesSlotEmpty : Prop :=
  ∀ s : State, s.fault = .noFault → s.stage = .idle → s.uif = true → s.uie = true → s.run = false →
    ((∀ T, s.tslot ≠ .full T) ∨ (∀ h, s.pslot ≠ .full h)) →
    exec .tick s = .next { s with fault := .slotEmpty } ∧
    ∀ i, exec i { s with fault := .slotEmpty } = .fault (.stopped .slotEmpty)

/-- The checks of a TICK in the order of R137, each leaving all else unchanged: SlotEmpty before
PhaseRange, PhaseRange (R98) before anything of the fold. The third clause is the model's choice: that a
`TAB` shorter than `N + 1` entries meets IndexRange where the entry is missing, at phase 0 too, where R112
lets a model skip the read, is log 12 (DEDUCED); R42 and R125 raise IndexRange only for `idx > N`. -/
def Obligations.TickChecksInOrder : Prop :=
  ∀ s : State, s.fault = .noFault → s.stage = .idle → s.uif = true → s.uie = true →
    (s.run = false → bothFull s = false → exec .tick s = .next { s with fault := .slotEmpty }) ∧
    (s.run = true ∨ bothFull s = true → 4 * s.cfg.n ≤ s.phase →
      exec .tick s = .next { s with fault := .phaseRange }) ∧
    (s.run = true → s.phase < s.cfg.n → s.tab.length ≤ s.phase →
      exec .tick s = .next { s with fault := .indexRange })

/-- Where TICK has no step (R93, R140): without a pending event, unarmed, or inside an invocation. After
a TICK no second one runs for the same event (R135). -/
def Obligations.TickNeedsArmedEvent : Prop :=
  ∀ s : State, s.fault = .noFault →
    (s.uif = false ∨ s.uie = false ∨ s.stage ≠ .idle → exec .tick s = .refused (.notEnabled .tick)) ∧
    (∀ t, exec .tick s = .next t → t.fault = .noFault →
      t.uif = false ∧ exec .tick t = .refused (.notEnabled .tick))

/-- In every state the invariant allows, an enabled TICK of a running driver completes without a fault:
"panic-free by construction" (R93, R120, R130). -/
def Obligations.RunningTickNeverFaults : Prop :=
  ∀ s : State, StateInv s → s.fault = .noFault → tickEnabled s = true → s.run = true →
    ∃ t, exec .tick s = .next t ∧ t.fault = .noFault ∧
      t.out = s.out ++ [fold s.cfg.n s.cfg.table s.phase] ∧ t.duty ≤ s.cfg.maxDuty

/-- `m + 1` events with no TICK between them enable one TICK, and the phase advances by one (R103,
R135). -/
def Obligations.PendingEventsAreNotCounted : Prop :=
  ∀ (s : State) (m : Nat), s.fault = .noFault → s.stage = .idle → s.uie = true → s.run = true →
    s.phase < 4 * s.cfg.n → s.tab.length = s.cfg.n + 1 → (∀ d ∈ s.tab, d ≤ s.cfg.maxDuty) →
    ∃ t, execAll (List.replicate (m + 1) .uev ++ [.tick]) s = .next t ∧
      t.phase = (s.phase + 1) % (4 * s.cfg.n) ∧ t.uif = false ∧ t.out.length = s.out.length + 1 ∧
      exec .tick t = .refused (.notEnabled .tick)

/-! ## The sub-operations as steps of their own (R104, log 1) -/

/-- CLAIM (R94) where an invocation may begin: both slots are taken in one step; SlotEmpty if one is not
FULL, also when the claim is forced a second time (U15). -/
def Obligations.ClaimTakesBothSlots : Prop :=
  encode .claim = 0b10000#5 ∧
  ∀ s : State, s.fault = .noFault → tickEnabled s = true →
    (∀ T h, s.run = false → s.tslot = .full T → s.pslot = .full h →
      exec .claim s = .next { s with
        pslot := .taken, tslot := .taken, tab := T, run := true, stage := .claimed }) ∧
    (bothFull s = false → exec .claim s = .next { s with fault := .slotEmpty }) ∧
    (s.run = true → bothFull s = true → exec .claim s = .refused (.notEnabled .claim))

/-- ADV (R97, R98) after the claim or first in a later invocation: hands over `PHASE`, stores
`(PHASE + 1) mod 4N`; PhaseRange if `PHASE >= 4N`. -/
def Obligations.AdvanceStepsPhase : Prop :=
  encode .adv = 0b10001#5 ∧
  ∀ s : State, s.fault = .noFault → s.stage = .claimed ∨ (tickEnabled s = true ∧ s.run = true) →
    (s.phase < 4 * s.cfg.n → exec .adv s = .next { s with
      phase := (s.phase + 1) % (4 * s.cfg.n), stage := .advanced s.phase }) ∧
    (4 * s.cfg.n ≤ s.phase → exec .adv s = .next { s with fault := .phaseRange })

/-- ACK (R101) after ADV: clears `UIF`. -/
def Obligations.AcknowledgeClearsFlag : Prop :=
  encode .ack = 0b10010#5 ∧
  ∀ (s : State) (i : Nat), s.fault = .noFault → s.stage = .advanced i →
    exec .ack s = .next { s with uif := false, stage := .acked i }

/-- FOLD (R105) after ACK: the duty handed on is that of the five cases; for `i >= 4N`, where FOLD has no
meaning (R106), some duty is, of which nothing is said (the model's choice, log 18). That FOLD reads `TAB`
while `RUN = 0` too, where R42 gives the read no meaning, is the model's choice, log 6. -/
def Obligations.FoldByFiveCases : Prop :=
  encode .fold = 0b10011#5 ∧
  ∀ (s : State) (i : Nat), s.fault = .noFault → s.stage = .acked i →
    (i < 4 * s.cfg.n → s.tab.length = s.cfg.n + 1 →
      ∃ d, exec .fold s = .next { s with stage := .folded d } ∧
        (i = 0 ∨ i = 2 * s.cfg.n → d = 0) ∧
        (0 < i ∧ i < s.cfg.n → s.tab[i]? = some d) ∧
        (s.cfg.n ≤ i ∧ i < 2 * s.cfg.n → s.tab[2 * s.cfg.n - i]? = some d) ∧
        (2 * s.cfg.n < i ∧ i < 3 * s.cfg.n → s.tab[i - 2 * s.cfg.n]? = some d) ∧
        (3 * s.cfg.n ≤ i ∧ i < 4 * s.cfg.n → s.tab[4 * s.cfg.n - i]? = some d)) ∧
    (4 * s.cfg.n ≤ i → ∃ d, exec .fold s = .next { s with stage := .folded d })

/-- QUAD (R107) and IDX (R109), each after its predecessor. For `i >= 4N` QUAD's quadrant is the model's
choice (log 18). Where the subtraction of R109 would go below 0 IDX hands on some index, of which nothing
is said (log 18). -/
def Obligations.QuadThenIndex : Prop :=
  encode .quad = 0b10100#5 ∧ encode .idx = 0b10101#5 ∧
  ∀ (s : State) (i : Nat) (sel : Select), s.fault = .noFault →
    (∀ z q, z = decide (i = 0 ∨ i = 2 * s.cfg.n) →
      q = (if i < s.cfg.n then 0 else if i < 2 * s.cfg.n then 1 else if i < 3 * s.cfg.n then 2 else 3) →
      s.stage = .acked i → exec .quad s = .next { s with stage := .decoded i (Select.mk z q) }) ∧
    (s.stage = .decoded i sel →
      ∃ j, exec .idx s = .next { s with stage := .indexed sel.zero j } ∧
        (sel.quad = 0 → j = i) ∧
        (sel.quad = 1 → i ≤ 2 * s.cfg.n → j + i = 2 * s.cfg.n) ∧
        (sel.quad = 2 → 2 * s.cfg.n ≤ i → j + 2 * s.cfg.n = i) ∧
        (sel.quad = 3 → i ≤ 4 * s.cfg.n → j + i = 4 * s.cfg.n))

/-- LUT (R111) and MUX (R113), each after its predecessor; IndexRange above `N`. That LUT hands on `TAB`'s
entry while `RUN = 0` too, where R42 gives the read no meaning, is the model's choice, log 6. -/
def Obligations.LookupThenMux : Prop :=
  encode .lut = 0b10110#5 ∧ encode .mux = 0b10111#5 ∧
  ∀ (s : State) (z : Bool) (j e : Nat), s.fault = .noFault →
    (s.stage = .indexed z j → s.tab.length = s.cfg.n + 1 → j ≤ s.cfg.n →
      exec .lut s = .next { s with stage := .looked z (s.tab.getD j 0) }) ∧
    (s.stage = .indexed z j → s.cfg.n < j → exec .lut s = .next { s with fault := .indexRange }) ∧
    (s.stage = .looked z e →
      exec .mux s = .next { s with stage := .folded (if z = true then 0 else e) })

/-- SETD (R115) after FOLD: `DUTY` and one entry of `OUT`, whatever `PWM_EN` is; it ends the invocation.
A duty above `MAX_DUTY` is refused (U21, log 11). -/
def Obligations.SetDutyWritesAndEmits : Prop :=
  encode .setd = 0b11000#5 ∧
  ∀ (s : State) (d : Nat), s.fault = .noFault → s.stage = .folded d →
    (d ≤ s.cfg.maxDuty →
      exec .setd s = .next { s with duty := d, out := s.out ++ [d], stage := .idle }) ∧
    (s.cfg.maxDuty < d → exec .setd s = .refused (.dutyRange d))

/-- A sub-operation out of its place has no step (R65, R104), and inside an invocation STARTUP's
operations have none (R81): the interrupt context "fully preempts the normal context". -/
def Obligations.OutOfPlaceIsNotEnabled : Prop :=
  ∀ s : State, s.fault = .noFault →
    (∀ i : Instr, i.agent = .startup → s.stage ≠ .idle → exec i s = .refused (.notEnabled i)) ∧
    (tickEnabled s = false → exec .claim s = .refused (.notEnabled .claim)) ∧
    (s.stage ≠ .claimed → (tickEnabled s && s.run) = false → exec .adv s = .refused (.notEnabled .adv)) ∧
    ((∀ i, s.stage ≠ .advanced i) → exec .ack s = .refused (.notEnabled .ack)) ∧
    ((∀ i, s.stage ≠ .acked i) →
      exec .fold s = .refused (.notEnabled .fold) ∧ exec .quad s = .refused (.notEnabled .quad)) ∧
    ((∀ i sel, s.stage ≠ .decoded i sel) → exec .idx s = .refused (.notEnabled .idx)) ∧
    ((∀ z j, s.stage ≠ .indexed z j) → exec .lut s = .refused (.notEnabled .lut)) ∧
    ((∀ z e, s.stage ≠ .looked z e) → exec .mux s = .refused (.notEnabled .mux)) ∧
    ((∀ d, s.stage ≠ .folded d) → exec .setd s = .refused (.notEnabled .setd))

/-- The split form is the indivisible TICK (R104, R106): whenever a TICK completes without a fault, its
sub-operations in the order of R93 lead to the same state, with FOLD in one piece or as its four
stages, and whenever they lead anywhere without a fault, the TICK does. -/
def Obligations.SplitTickRefinesTick : Prop :=
  ∀ s t : State, s.stage = .idle → t.fault = .noFault →
    (exec .tick s = .next t ↔ execAll (tickOps s.run) s = .next t) ∧
    (exec .tick s = .next t ↔ execAll (tickStageOps s.run) s = .next t)

/-- An event inside an invocation (R103, R104): before the ACK it is lost, after the ACK it is kept and
enables the next TICK. -/
def Obligations.EventInsideInvocation : Prop :=
  ∀ s t : State, s.stage = .idle → s.run = true → exec .tick s = .next t → t.fault = .noFault →
    execAll [.adv, .uev, .ack, .fold, .setd] s = .next t ∧
    execAll [.adv, .ack, .uev, .fold, .setd] s = .next { t with uif := true } ∧
    execAll [.adv, .ack, .fold, .uev, .setd] s = .next { t with uif := true } ∧
    tickEnabled { t with uif := true } = true

/-! ## Laws of the accumulator, the fold and the widths -/

/-- The select code over `[0, 4N)` is the table of R59 and R66: six disjoint ranges that cover it. -/
def Obligations.SelectCodeByRange : Prop :=
  ∀ n i : Nat, 1 ≤ n → i < 4 * n →
    (selectCode (selectOf n i) = 0b100#3 ↔ i = 0) ∧
    (selectCode (selectOf n i) = 0b000#3 ↔ 0 < i ∧ i < n) ∧
    (selectCode (selectOf n i) = 0b001#3 ↔ n ≤ i ∧ i < 2 * n) ∧
    (selectCode (selectOf n i) = 0b110#3 ↔ i = 2 * n) ∧
    (selectCode (selectOf n i) = 0b010#3 ↔ 2 * n < i ∧ i < 3 * n) ∧
    (selectCode (selectOf n i) = 0b011#3 ↔ 3 * n ≤ i) ∧
    (quadOf n i).val = i / n

/-- The staged form of the fold is the five cases, for every table of `N + 1` entries (R106); that it reads
`TAB` while `RUN = 0` too, where R42 gives the read no meaning, is the model's choice, log 6. -/
def Obligations.StagedFoldIsFold : Prop :=
  ∀ (s : State) (i : Nat), s.tab.length = s.cfg.n + 1 → i < 4 * s.cfg.n →
    foldStaged s i = .ok (fold s.cfg.n s.tab i)

/-- Index range (R120): `idx <= N`, `N` only at the peaks, 0 only at the zero crossings; and the closed
form of the index (R110), which makes the forced zero redundant for a table whose entry 0 is 0 (R114). -/
def Obligations.IndexRangeAndClosedForm : Prop :=
  ∀ n i : Nat, i < 4 * n →
    indexOf n i (quadOf n i) ≤ n ∧
    (indexOf n i (quadOf n i) = n ↔ i = n ∨ i = 3 * n) ∧
    (indexOf n i (quadOf n i) = 0 ↔ i = 0 ∨ i = 2 * n) ∧
    (indexOf n i (quadOf n i) : ℤ) = (n : ℤ) - |(n : ℤ) - ((i % (2 * n) : ℕ) : ℤ)| ∧
    (zeroOf n i = true ↔ i % (2 * n) = 0) ∧
    ∀ T : QuarterTable, T[0]? = some 0 → fold n T i = T.getD (indexOf n i (quadOf n i)) 0

/-- Mirror symmetry (R117) and half-period repetition (R118), for every table. -/
def Obligations.FoldSymmetries : Prop :=
  ∀ (n : Nat) (T : QuarterTable),
    fold n T 0 = 0 ∧ fold n T (2 * n) = 0 ∧
    (∀ i, 0 < i → i < 4 * n → fold n T i = fold n T (4 * n - i)) ∧
    ∀ i, i < 2 * n → fold n T (i + 2 * n) = fold n T i

/-- The shape of the wave with the configuration's table (R119). -/
def Obligations.FoldShape : Prop :=
  ∀ c : Config, c.wf = true →
    (∀ i, i < 4 * c.n → (fold c.n c.table i = 0 ↔
      i = 0 ∨ i = 2 * c.n ∨ c.table.getD (indexOf c.n i (quadOf c.n i)) 0 = 0)) ∧
    fold c.n c.table c.n = c.maxDuty ∧ fold c.n c.table (3 * c.n) = c.maxDuty ∧
    (∀ i j, i ≤ j → j ≤ c.n → fold c.n c.table i ≤ fold c.n c.table j) ∧
    (∀ i j, c.n ≤ i → i ≤ j → j ≤ 2 * c.n → fold c.n c.table j ≤ fold c.n c.table i) ∧
    (∀ i j, 2 * c.n ≤ i → i ≤ j → j ≤ 3 * c.n → fold c.n c.table i ≤ fold c.n c.table j) ∧
    (∀ i j, 3 * c.n ≤ i → i ≤ j → j < 4 * c.n → fold c.n c.table j ≤ fold c.n c.table i) ∧
    ∀ i, i < 4 * c.n → fold c.n c.table i ≤ c.maxDuty

/-- One full period of duties (R122): the half period `0, T[1], ..., T[N], ..., T[1]` twice. -/
def Obligations.FullPeriodIsTwoHalves : Prop :=
  ∀ (n : Nat) (T : QuarterTable), 1 ≤ n → T.length = n + 1 →
    (List.range (4 * n)).map (fold n T) = halfPeriod T ++ halfPeriod T

/-- The laws of ADV (R99): `(PHASE + 1) mod 4N`, in range, and `4N` advances from any value visit each
of `0 .. 4N - 1` exactly once and return to the start. -/
def Obligations.AdvanceVisitsEveryPhase : Prop :=
  ∀ n p : Nat, p < 4 * n →
    advancedPhase n p = (p + 1) % (4 * n) ∧ advancedPhase n p < 4 * n ∧
    (advancedPhase n)^[4 * n] p = p ∧
    ∀ q, q < 4 * n → ∃! k, k < 4 * n ∧ (advancedPhase n)^[k] p = q

/-- The other formulation of R97: a counter that starts at `4N - 1`, is advanced first and folded then,
gives the same phase values, and so the same duties, as one that starts at 0 and is folded first. -/
def Obligations.PreIncrementFormIsEqual : Prop :=
  ∀ n : Nat, 1 ≤ n →
    (∀ j, (advancedPhase n)^[j + 1] (4 * n - 1) = (advancedPhase n)^[j] 0) ∧
    (∀ j, (advancedPhase n)^[j] 0 = j % (4 * n)) ∧
    ∀ (c : Config) (k : Nat), c.n = n →
      (List.range k).map (fun j => fold n c.table ((advancedPhase n)^[j + 1] (4 * n - 1))) =
        waveform c k

/-- The widths of R9: `PHASE_W` is the least that holds the transient `4N`, `IDX_W` the least that holds
every index; for `N = 50` they are 8 and 6. -/
def Obligations.LeastWidths : Prop :=
  (∀ n w : Nat, 1 ≤ n → (phaseW n ≤ w ↔ 4 * n < 2 ^ w)) ∧
  (∀ n w : Nat, 1 ≤ n → (idxW n ≤ w ↔ n < 2 ^ w)) ∧
  (∀ n i : Nat, 1 ≤ n → i ≤ 4 * n → (phaseWord n i).toNat = i) ∧
  (∀ n j : Nat, 1 ≤ n → j ≤ n → (indexWord n j).toNat = j) ∧
  phaseW 50 = 8 ∧ idxW 50 = 6

/-- Width independence (R121): ADV (its check and the value it stores), QUAD (`quad` and `zero`) and IDX
give the same in unsigned words of any width that holds `4N` as in the natural numbers. -/
def Obligations.WidthIndependence : Prop :=
  ∀ w n i : Nat, 4 * n < 2 ^ w → i < 4 * n →
    (advancedPhaseBits n (BitVec.ofNat w i)).toNat = advancedPhase n i ∧
    ¬ BitVec.ofNat w (4 * n) ≤ BitVec.ofNat w i ∧
    quadBits n (BitVec.ofNat w i) = quadOf n i ∧
    zeroBits n (BitVec.ofNat w i) = zeroOf n i ∧
    selectBits n (BitVec.ofNat w i) = selectOf n i ∧
    (indexBits n (BitVec.ofNat w i) (quadOf n i)).toNat = indexOf n i (quadOf n i)

/-! ## The table function over the reals -/

/-- The properties (a) to (d) of R78, for every `N >= 1` and `MAX_DUTY > 0`. -/
def Obligations.SineTableProperties : Prop :=
  ∀ n m : Nat, 1 ≤ n → 0 < m →
    sineEntry n m 0 = 0 ∧ sineEntry n m n = m ∧
    (∀ i, i < n → sineEntry n m i ≤ sineEntry n m (i + 1)) ∧
    ∀ i, i ≤ n → sineEntry n m i ≤ m

/-- The worked tables of R80 and the tie of R76: `N = 4` and `N = 2` with `MAX_DUTY = 100`, `N = 1` with
any, `N = 3` with 5. -/
def Obligations.WorkedSineTables : Prop :=
  (List.range 5).map (sineEntry 4 100) = [0, 38, 71, 92, 100] ∧
  (∀ m, 0 < m → (List.range 2).map (sineEntry 1 m) = [0, m]) ∧
  (List.range 3).map (sineEntry 2 100) = [0, 71, 100] ∧
  (List.range 4).map (sineEntry 3 5) = [0, 3, 4, 5]

/-- The table the reset state's configuration carries is the one R75 defines for `N = 50` and
`MAX_DUTY = 100`. (That `MAX_DUTY` is 100 there is the model's choice, log 4.) -/
def Obligations.CarriedTableIsRoundedSine : Prop :=
  sineTable Config.hardware

/-! ## Whole-machine rules -/

/-- `raise` (R126), for every operation and every state: if `FAULT` changes, it was 0 and nothing else
changes; once it is non-zero no operation is enabled, "the machine is stopped for good". -/
def Obligations.FaultWritesOnlyFaultAndStops : Prop :=
  (∀ (i : Instr) (s t : State), exec i s = .next t → t.fault ≠ s.fault →
    s.fault = .noFault ∧ t = { s with fault := t.fault }) ∧
  ∀ (i : Instr) (s : State), s.fault ≠ .noFault → exec i s = .fault (.stopped s.fault)

/-- Which operation raises which code, and on which cause (R125; that a `TAB` too short for the index is a
cause of IndexRange is log 12). The outcome `fault` is answered only where a fault was recorded before,
and names it (log 7). -/
def Obligations.FaultsOnlyFromTheirRaisers : Prop :=
  (∀ (i : Instr) (s t : State), exec i s = .next t → s.fault = .noFault →
    (t.fault = .slotEmpty → (i = .claim ∨ i = .tick ∧ s.run = false) ∧ bothFull s = false) ∧
    (t.fault = .slotRewrite →
      i = .build ∧ s.tslot ≠ .empty0 ∨ i = .putp ∧ s.pslot ≠ .empty0) ∧
    (t.fault = .owner → (i = .getmax ∨ i = .enable ∨ i = .listen) ∧ s.run = true) ∧
    (t.fault = .phaseRange → (i = .adv ∨ i = .tick) ∧ 4 * s.cfg.n ≤ s.phase) ∧
    (t.fault = .indexRange →
      (i = .lut ∧ ∃ z j, s.stage = .indexed z j ∧ entryMissing s j) ∨
      (i = .fold ∧ ∃ p, s.stage = .acked p ∧ entryMissing s (indexOf s.cfg.n p (quadOf s.cfg.n p))) ∨
      (i = .tick ∧ ∃ u, claimIfNeeded s = .ok u ∧
        entryMissing u (indexOf s.cfg.n s.phase (quadOf s.cfg.n s.phase))))) ∧
  ∀ (i : Instr) (s : State) (r : Fault), exec i s = .fault r →
    s.fault ≠ .noFault ∧ r = .stopped s.fault

/-- What never goes back except by reset (R39), over every step. -/
def Obligations.OneWayBitsStay : Prop :=
  ∀ s t : State, step s = .next t →
    (s.uie = true → t.uie = true) ∧ (s.pwmEn = true → t.pwmEn = true) ∧
    (s.run = true → t.run = true) ∧ (s.tslot = .taken → t.tslot = .taken) ∧
    (s.pslot = .taken → t.pslot = .taken) ∧ s.fault = .noFault

/-- Which operation writes which element (the column "written by" of spec/10_state.md section 1), over
every operation and state; TICK stands for its sub-operations. The configuration and the schedule are
written by none. So STARTUP writes no state of the driver and DRIVER neither `UIE` nor `PWM_EN` (R34). -/
def Obligations.ElementsWrittenOnlyByTheirWriters : Prop :=
  ∀ (i : Instr) (s t : State), exec i s = .next t →
    (t.phase ≠ s.phase → i = .adv ∨ i = .tick) ∧
    (t.run ≠ s.run → i = .claim ∨ i = .tick) ∧
    (t.tab ≠ s.tab → i = .claim ∨ i = .tick) ∧
    (t.tslot ≠ s.tslot → i = .build ∨ i = .claim ∨ i = .tick) ∧
    (t.pslot ≠ s.pslot → i = .putp ∨ i = .claim ∨ i = .tick) ∧
    (t.uif ≠ s.uif → i = .uev ∨ i = .ack ∨ i = .tick) ∧
    (t.uie ≠ s.uie → i = .listen) ∧
    (t.pwmEn ≠ s.pwmEn → i = .enable) ∧
    (t.duty ≠ s.duty → i = .setd ∨ i = .tick) ∧
    (t.out ≠ s.out → (i = .setd ∨ i = .tick) ∧ t.out = s.out ++ [t.duty]) ∧
    (t.got ≠ s.got → i = .getmax) ∧
    (t.stage ≠ s.stage → i.agent = .driver ∧ i ≠ .tick) ∧
    t.cfg = s.cfg ∧ t.sched = s.sched

/-- Nothing reads `PWM_EN` (R26) or `DUTY` (R27), and while `RUN = 0` nothing reads `TAB` (R21, R148):
states that differ only there have outcomes that differ at most there. -/
def Obligations.UnreadElementsDoNotMatter : Prop :=
  ∀ (i : Instr) (s : State),
    (∀ b, mapState (fun t => { t with pwmEn := false }) (exec i { s with pwmEn := b }) =
      mapState (fun t => { t with pwmEn := false }) (exec i s)) ∧
    (∀ d, mapState (fun t => { t with duty := 0 }) (exec i { s with duty := d }) =
      mapState (fun t => { t with duty := 0 }) (exec i s)) ∧
    (∀ T, s.run = false → s.stage = .idle →
      mapState (fun t => if t.run then t else { t with tab := [] }) (exec i { s with tab := T }) =
        mapState (fun t => if t.run then t else { t with tab := [] }) (exec i s))

/-- The invariant holds at reset, under every well-formed configuration. -/
def Obligations.ResetSatisfiesInvariant : Prop :=
  (∀ c : Config, c.wf = true → StateInv (State.resetWith c)) ∧ StateInv State.reset

/-- Every step keeps the invariant, from every state that meets it, whatever is scheduled. -/
def Obligations.StepKeepsInvariant : Prop :=
  ∀ s t : State, StateInv s → step s = .next t → StateInv t

/-- What the invariant says of the ranges (R35, R38): `PHASE` in `[0, 4N)` and in `PHASE_W` bits, every
duty of `OUT`, and `DUTY` once written, in `[0, MAX_DUTY]` and in `DUTY_W` bits. -/
def Obligations.InvariantBoundsRegisters : Prop :=
  ∀ s : State, StateInv s →
    s.phase < 4 * s.cfg.n ∧ s.phase < 2 ^ phaseW s.cfg.n ∧
    (∀ d ∈ s.out, d ≤ s.cfg.maxDuty ∧ d < 2 ^ s.cfg.dutyW) ∧
    (s.out ≠ [] → s.duty ≤ s.cfg.maxDuty) ∧
    (s.run = true → ∀ d ∈ s.tab, d ≤ s.cfg.maxDuty)

/-- From reset, after any run of schedulable operations that recorded no fault (R40, R100): `OUT` has
one duty for each TICK, `PHASE` is their number modulo `4N`, and `OUT` is the waveform. -/
def Obligations.OutputIsWaveformOfTicks : Prop :=
  ∀ (c : Config) (l : List Instr) (t : State), c.wf = true → l.all Instr.schedulable = true →
    execAll l (State.resetWith c) = .next t → t.fault = .noFault →
    t.phase = l.count .tick % (4 * c.n) ∧ t.out = waveform c (l.count .tick)

/-- A well-formed start-up program raises no fault in any interleaving with UEV and TICK (R154): no run
from reset whose STARTUP part is well formed ends stopped or with a fault recorded. -/
def Obligations.WellFormedStartupNeverFaults : Prop :=
  ∀ (c : Config) (l : List Instr), c.wf = true → l.all Instr.schedulable = true →
    startupWf (startupPart l) = true →
    (∀ r, execAll l (State.resetWith c) ≠ .fault r) ∧
    ∀ t, execAll l (State.resetWith c) = .next t → t.fault = .noFault

/-- With nothing scheduled an invocation in progress runs to completion in at most four steps (R139),
and an enabled TICK runs at once (U23): one more duty has been written. -/
def Obligations.InvocationRunsToCompletion : Prop :=
  ∀ s : State, StateInv s → s.fault = .noFault → s.sched = [] →
    (s.stage ≠ .idle → ∃ k t, k ≤ 4 ∧ Host.Core.run Sys2Proof.core k s = .next t ∧
      t.stage = .idle ∧ t.out.length = s.out.length + 1 ∧ t.fault = .noFault) ∧
    (tickEnabled s = true → s.run = true → ∃ t, step s = .next t ∧
      t.out.length = s.out.length + 1 ∧ t.fault = .noFault)
end

