-- ==== Sys2Proof/Laws/Ops.lean ====
section
/-! SUPPORT. What each shared operation can do, said once. -/

namespace Sys2Proof.Machine

/-- With no fault recorded, `raise` records its code and changes nothing else (R126). -/
theorem raise_of_noFault {s : State} (c : FaultCode) (h : s.fault = .noFault) :
    raise c s = .next { s with fault := c } := by
  simp [raise, h]

/-- Where no fault is recorded and the condition holds, the operation takes effect. -/
theorem guarded_enabled {i : Instr} {en : Bool} {s : State} {e : Result}
    (hf : s.fault = .noFault) (he : en = true) : guarded i en s e = e := by
  simp [guarded, hf, he]

/-- Where no fault is recorded and the condition fails, the operation is not enabled. -/
theorem guarded_disabled {i : Instr} {en : Bool} {s : State} {e : Result}
    (hf : s.fault = .noFault) (he : en = false) : guarded i en s e = .refused (.notEnabled i) := by
  simp [guarded, hf, he]

/-- With a fault recorded nothing is enabled (R126). -/
theorem guarded_stopped {i : Instr} {en : Bool} {s : State} {e : Result} (hf : s.fault ≠ .noFault) :
    guarded i en s e = .fault (.stopped s.fault) := by
  simp [guarded, hf]

/-- A guarded operation answers a next state exactly when it is enabled and its effect does. -/
theorem guarded_eq_next {i : Instr} {en : Bool} {s t : State} {e : Result} :
    guarded i en s e = .next t ↔ s.fault = .noFault ∧ en = true ∧ e = .next t := by
  by_cases hf : s.fault = .noFault <;> cases en <;> simp [guarded, hf]

@[simp] theorem settle_ok (s t : State) : settle s (.ok t) = .next t := rfl
@[simp] theorem settle_error (s : State) (c : FaultCode) : settle s (.error c) = raise c s := rfl

/-- Settling always answers a next state: what the operation writes, or the fault recorded. -/
theorem settle_eq_next {s t : State} {e : Except FaultCode State} (hf : s.fault = .noFault) :
    settle s e = .next t ↔ e = .ok t ∨ ∃ c, e = .error c ∧ t = { s with fault := c } := by
  cases e <;> simp [raise_of_noFault _ hf, eq_comm]

@[simp] theorem slotPut_empty0 {α : Type} (v : α) : slotPut .empty0 v = .ok (.full v) := rfl
@[simp] theorem slotPut_full {α : Type} (u v : α) : slotPut (.full u) v = .error .slotRewrite := rfl
@[simp] theorem slotPut_taken {α : Type} (v : α) : slotPut .taken v = .error .slotRewrite := rfl
@[simp] theorem slotTake_empty0 {α : Type} : slotTake (.empty0 : Slot α) = .error .slotEmpty := rfl
@[simp] theorem slotTake_full {α : Type} (v : α) : slotTake (.full v) = .ok (v, .taken) := rfl
@[simp] theorem slotTake_taken {α : Type} : slotTake (.taken : Slot α) = .error .slotEmpty := rfl

/-- A table read answers the entry, and only inside the table (R42). -/
theorem tabRead_eq_ok {s : State} {j : Nat} {v : Duty} :
    tabRead s j = .ok v ↔ j ≤ s.cfg.n ∧ s.tab[j]? = some v := by
  unfold tabRead
  by_cases hj : j ≤ s.cfg.n
  · cases h : s.tab[j]? <;> simp [hj]
  · simp [hj]

/-- The only fault of a table read is IndexRange (R42). -/
theorem tabRead_error {s : State} {j : Nat} {c : FaultCode} (h : tabRead s j = .error c) :
    c = .indexRange := by
  unfold tabRead at h
  split at h
  · split at h
    · exact nomatch h
    · exact (Except.error.inj h).symm
  · exact (Except.error.inj h).symm

/-- A table read looks at `TAB` and `N` alone (R48). -/
theorem tabRead_congr {s t : State} (hc : t.cfg = s.cfg) (ht : t.tab = s.tab) (j : Nat) :
    tabRead t j = tabRead s j := by
  simp [tabRead, hc, ht]

/-- The duty write answers a next state exactly for a duty in range. -/
theorem setDuty_eq_next {d : Duty} {s t : State} :
    setDuty d s = .next t ↔ d ≤ s.cfg.maxDuty ∧ t = { s with duty := d, out := s.out ++ [d] } := by
  by_cases h : d ≤ s.cfg.maxDuty <;> simp [setDuty, h, eq_comm]

/-- A STARTUP operation answers a next state exactly outside an invocation with no fault recorded. -/
theorem startupOp_eq_next {i : Instr} {s t : State} {e : Except FaultCode State} :
    startupOp i s e = .next t ↔
      s.fault = .noFault ∧ s.stage = .idle ∧
        (e = .ok t ∨ ∃ c, e = .error c ∧ t = { s with fault := c }) := by
  unfold startupOp
  rw [guarded_eq_next]
  simp only [decide_eq_true_eq]
  refine and_congr_right fun hf => and_congr_right fun _ => settle_eq_next hf

/-- The claim succeeds exactly when both slots are FULL (R94). -/
theorem claimSlots_eq_ok {s t : State} :
    claimSlots s = .ok t ↔ ∃ T, s.tslot = .full T ∧ s.pslot = .full PwmHandle.mk ∧
      t = { s with pslot := .taken, tslot := .taken, tab := T, run := true } := by
  cases hp : s.pslot with
  | full h => cases h; cases ht : s.tslot <;> simp [claimSlots, hp, ht, eq_comm]
  | empty0 => simp [claimSlots, hp]
  | taken => simp [claimSlots, hp]

/-- The claim's only fault is SlotEmpty (R95). -/
theorem claimSlots_error {s : State} {c : FaultCode} (h : claimSlots s = .error c) :
    c = .slotEmpty ∧ bothFull s = false := by
  cases hp : s.pslot <;> cases ht : s.tslot <;> simp_all [claimSlots, bothFull]

/-- ADV succeeds exactly for a phase in range (R97). -/
theorem advance_eq_ok {s t : State} {i : Nat} :
    advance s = .ok (i, t) ↔ s.phase < 4 * s.cfg.n ∧ i = s.phase ∧
      t = { s with phase := advancedPhase s.cfg.n s.phase } := by
  by_cases h : 4 * s.cfg.n ≤ s.phase
  · simp [advance, h, Nat.not_lt.mpr h]
  · simp [advance, h, Nat.not_le.mp h, eq_comm]

/-- ADV's only fault is PhaseRange (R98). -/
theorem advance_error {s : State} {c : FaultCode} (h : advance s = .error c) :
    c = .phaseRange ∧ 4 * s.cfg.n ≤ s.phase := by
  by_cases hp : 4 * s.cfg.n ≤ s.phase
  · simp only [advance, hp, if_true, Except.error.injEq] at h
    exact ⟨h.symm, hp⟩
  · simp [advance, hp] at h

/-- A table read that faults names an index above `N` or an entry `TAB` does not have (R42, log 12). -/
theorem tabRead_error_cause {s : State} {j : Nat} {c : FaultCode} (h : tabRead s j = .error c) :
    s.cfg.n < j ∨ s.tab.length ≤ j := by
  by_cases hj : s.cfg.n < j
  · exact .inl hj
  · refine .inr (Nat.le_of_not_lt fun hl => ?_)
    simp [tabRead, Nat.not_lt.mp hj, List.getElem?_eq_getElem hl] at h

/-- Inside the phase range the fold is its stages (R105). -/
theorem foldStaged_of_lt {s : State} {i : Nat} (h : i < 4 * s.cfg.n) :
    foldStaged s i = (tabRead s (indexOf s.cfg.n i (quadOf s.cfg.n i))).map (muxOf (zeroOf s.cfg.n i)) := by
  simp [foldStaged, h, selectOf]

/-- Outside the phase range the fold answers a free value and does not fault (R106, log 18). -/
theorem foldStaged_of_le {s : State} {i : Nat} (h : 4 * s.cfg.n ≤ i) :
    foldStaged s i = .ok (Config.freeDuty s.cfg.n i) := by
  simp [foldStaged, Nat.not_lt.mpr h]

/-- The fold's only fault is the IndexRange of its table read (R105). -/
theorem foldStaged_error {s : State} {i : Nat} {c : FaultCode} (h : foldStaged s i = .error c) :
    c = .indexRange ∧
      tabRead s (indexOf s.cfg.n i (quadOf s.cfg.n i)) = .error .indexRange := by
  by_cases hi : i < 4 * s.cfg.n
  · rw [foldStaged_of_lt hi] at h
    cases hr : tabRead s (indexOf s.cfg.n i (quadOf s.cfg.n i)) with
    | ok v => simp [hr, Except.map] at h
    | error c' =>
      simp only [hr, Except.map, Except.error.injEq] at h
      exact ⟨h ▸ tabRead_error hr, by rw [tabRead_error hr]⟩
  · exact nomatch (foldStaged_of_le (Nat.not_lt.mp hi)).symm.trans h

/-- The fold looks at `TAB` and `N` alone. -/
theorem foldStaged_congr {s t : State} (hc : t.cfg = s.cfg) (ht : t.tab = s.tab) (i : Nat) :
    foldStaged t i = foldStaged s i := by
  simp [foldStaged, hc, tabRead_congr hc ht]

/-- What an invocation that reaches its duty write has done (R93): claimed if `RUN` was 0, advanced,
acknowledged and folded. -/
theorem invocation_eq_ok {s t : State} {d : Duty} :
    invocation s = .ok (t, d) ↔ ∃ u, claimIfNeeded s = .ok u ∧ u.phase < 4 * u.cfg.n ∧
      foldStaged u u.phase = .ok d ∧
      t = { u with phase := advancedPhase u.cfg.n u.phase, uif := false } := by
  unfold invocation
  cases hc : claimIfNeeded s with
  | error c => simp
  | ok u =>
    simp only [Except.ok.injEq, exists_eq_left']
    by_cases hp : 4 * u.cfg.n ≤ u.phase
    · simp [advance, hp, Nat.not_lt.mpr hp]
    · simp only [advance, hp, if_false, Nat.not_le.mp hp, true_and]
      rw [foldStaged_congr (s := u) (by rfl) (by rfl)]
      cases hd : foldStaged u u.phase <;> simp [Except.map, acknowledge, eq_comm, and_comm]

/-- A claim, needed or not, leaves `PHASE` and the configuration as they are (R94). -/
theorem claimIfNeeded_ok {s u : State} (h : claimIfNeeded s = .ok u) :
    u.phase = s.phase ∧ u.cfg = s.cfg := by
  unfold claimIfNeeded at h
  split at h
  · cases h
    exact ⟨rfl, rfl⟩
  · obtain ⟨_, _, _, rfl⟩ := claimSlots_eq_ok.mp h
    exact ⟨rfl, rfl⟩

/-- The fault of an invocation is one of its sub-operations', on that sub-operation's cause (R93, R137). -/
theorem invocation_error {s : State} {c : FaultCode} (h : invocation s = .error c) :
    (c = .slotEmpty ∧ s.run = false ∧ bothFull s = false) ∨
      ∃ u, claimIfNeeded s = .ok u ∧ ((c = .phaseRange ∧ 4 * u.cfg.n ≤ u.phase) ∨
        (c = .indexRange ∧ u.phase < 4 * u.cfg.n ∧
          tabRead u (indexOf u.cfg.n u.phase (quadOf u.cfg.n u.phase)) = .error .indexRange)) := by
  unfold invocation at h
  cases hc : claimIfNeeded s with
  | error c' =>
    simp only [hc, Except.error.injEq] at h
    have hr : s.run = false := by cases hr : s.run <;> simp [claimIfNeeded, hr] at hc ⊢
    simp only [claimIfNeeded, hr, Bool.false_eq_true, if_false] at hc
    exact .inl ⟨h ▸ (claimSlots_error hc).1, hr, (claimSlots_error hc).2⟩
  | ok u =>
    refine .inr ⟨u, rfl, ?_⟩
    rw [hc] at h
    cases ha : advance u with
    | error c' =>
      simp only [ha, Except.error.injEq] at h
      exact .inl ⟨h ▸ (advance_error ha).1, (advance_error ha).2⟩
    | ok r =>
      obtain ⟨hp, hi, ht⟩ := (advance_eq_ok (i := r.1) (t := r.2)).mp ha
      simp only [ha] at h
      rw [foldStaged_congr (s := u) (by rw [ht]; rfl) (by rw [ht]; rfl), hi] at h
      cases hd : foldStaged u u.phase with
      | error c' =>
        simp only [hd, Except.map, Except.error.injEq] at h
        exact .inr ⟨h ▸ (foldStaged_error hd).1, hp, (foldStaged_error hd).2⟩
      | ok d => simp [hd, Except.map] at h

end Sys2Proof.Machine
end

