-- ==== Sys2Proof/Laws/State.lean ====
section
/-! SUPPORT. The fields of the model's named states and updates: `State.resetWith` and `acknowledge`,
one lemma per field, and the schedule. -/

namespace Sys2Proof.Machine

@[simp] theorem resetWith_cfg (c : Config) : (State.resetWith c).cfg = c := rfl
@[simp] theorem resetWith_phase (c : Config) : (State.resetWith c).phase = 0 := rfl
@[simp] theorem resetWith_run (c : Config) : (State.resetWith c).run = false := rfl
@[simp] theorem resetWith_tslot (c : Config) : (State.resetWith c).tslot = .empty0 := rfl
@[simp] theorem resetWith_pslot (c : Config) : (State.resetWith c).pslot = .empty0 := rfl
@[simp] theorem resetWith_uif (c : Config) : (State.resetWith c).uif = false := rfl
@[simp] theorem resetWith_uie (c : Config) : (State.resetWith c).uie = false := rfl
@[simp] theorem resetWith_pwmEn (c : Config) : (State.resetWith c).pwmEn = false := rfl
@[simp] theorem resetWith_fault (c : Config) : (State.resetWith c).fault = .noFault := rfl
@[simp] theorem resetWith_out (c : Config) : (State.resetWith c).out = [] := rfl
@[simp] theorem resetWith_got (c : Config) : (State.resetWith c).got = [] := rfl
@[simp] theorem resetWith_stage (c : Config) : (State.resetWith c).stage = .idle := rfl
@[simp] theorem resetWith_sched (c : Config) : (State.resetWith c).sched = [] := rfl

@[simp] theorem resetWith_tab_length (c : Config) : (State.resetWith c).tab.length = c.n + 1 := by
  simp [State.resetWith]

@[simp] theorem acknowledge_cfg (s : State) : (acknowledge s).cfg = s.cfg := rfl
@[simp] theorem acknowledge_phase (s : State) : (acknowledge s).phase = s.phase := rfl
@[simp] theorem acknowledge_run (s : State) : (acknowledge s).run = s.run := rfl
@[simp] theorem acknowledge_tab (s : State) : (acknowledge s).tab = s.tab := rfl
@[simp] theorem acknowledge_tslot (s : State) : (acknowledge s).tslot = s.tslot := rfl
@[simp] theorem acknowledge_pslot (s : State) : (acknowledge s).pslot = s.pslot := rfl
@[simp] theorem acknowledge_uif (s : State) : (acknowledge s).uif = false := rfl
@[simp] theorem acknowledge_uie (s : State) : (acknowledge s).uie = s.uie := rfl
@[simp] theorem acknowledge_pwmEn (s : State) : (acknowledge s).pwmEn = s.pwmEn := rfl
@[simp] theorem acknowledge_duty (s : State) : (acknowledge s).duty = s.duty := rfl
@[simp] theorem acknowledge_fault (s : State) : (acknowledge s).fault = s.fault := rfl
@[simp] theorem acknowledge_out (s : State) : (acknowledge s).out = s.out := rfl
@[simp] theorem acknowledge_got (s : State) : (acknowledge s).got = s.got := rfl
@[simp] theorem acknowledge_stage (s : State) : (acknowledge s).stage = s.stage := rfl
@[simp] theorem acknowledge_sched (s : State) : (acknowledge s).sched = s.sched := rfl

/-- With nothing scheduled the operation is chosen by the state alone. -/
theorem nextOperation_nil (s : State) (h : s.sched = []) : nextOperation s = .ok (unscheduledOp s, s) := by
  simp [nextOperation, h]

/-- A scheduled word that decodes is taken off the schedule. -/
theorem nextOperation_cons (s : State) (w : OpWord) (rest : List OpWord) (i : Instr)
    (h : s.sched = w :: rest) (hd : decode w = some i) :
    nextOperation s = .ok (i, { s with sched := rest }) := by
  simp [nextOperation, h, hd]

/-- The state the next operation runs in differs in the schedule only. -/
theorem nextOperation_ok (s t : State) (i : Instr) (h : nextOperation s = .ok (i, t)) :
    t = { s with sched := t.sched } := by
  unfold nextOperation at h
  split at h
  · simp only [Except.ok.injEq, Prod.mk.injEq] at h
    rw [← h.2]
  · split at h
    · simp only [Except.ok.injEq, Prod.mk.injEq] at h
      rw [← h.2]
    · exact nomatch h

end Sys2Proof.Machine
end

