-- ==== Sys2Proof/Laws/Exec.lean ====
section
/-! SUPPORT. Inversion: what each operation has done when it answers a next state, the case of a fault
recorded included. Later proofs cite these instead of unfolding the meanings. -/

namespace Sys2Proof.Machine

/-- The next state of an operation that raised `c`. -/
def faulted (s : State) (c : FaultCode) : State := { s with fault := c }

/-- Whatever answers a next state was enabled: no fault was recorded (R126). -/
theorem exec_next_noFault {i : Instr} {s t : State} (h : exec i s = .next t) : s.fault = .noFault := by
  by_cases hf : s.fault = .noFault
  · exact hf
  · exfalso
    cases i <;>
      simp only [exec, execIdle, execGetmax, execBuild, execPutp, execEnable, execListen, execUev,
        execTick, execClaim, execAdv, execAck, execFold, execQuad, execIdx, execLut, execMux, execSetd,
        startupOp] at h <;>
      (try split at h) <;> simp [guarded_stopped hf] at h

theorem exec_idle_next {s t : State} (h : exec .idle s = .next t) : s.stage = .idle ∧ t = s := by
  obtain ⟨_, hs, h | ⟨c, h, _⟩⟩ := startupOp_eq_next.mp h
  · exact ⟨hs, (Except.ok.inj h).symm⟩
  · exact nomatch h

theorem exec_getmax_next {s t : State} (h : exec .getmax s = .next t) :
    s.stage = .idle ∧ ((s.run = false ∧ t = { s with got := s.got ++ [s.cfg.maxDuty] }) ∨
      (s.run = true ∧ t = faulted s .owner)) := by
  obtain ⟨_, hs, h | ⟨c, h, ht⟩⟩ := startupOp_eq_next.mp h <;> cases hr : s.run <;>
    simp_all [owned, faulted]

theorem exec_build_next {s t : State} (h : exec .build s = .next t) :
    s.stage = .idle ∧ ((s.tslot = .empty0 ∧ t = { s with tslot := .full s.cfg.table }) ∨
      (s.tslot ≠ .empty0 ∧ t = faulted s .slotRewrite)) := by
  obtain ⟨_, hs, h | ⟨c, h, ht⟩⟩ := startupOp_eq_next.mp h <;> cases hr : s.tslot <;>
    simp_all [faulted, Except.map]

theorem exec_putp_next {s t : State} (h : exec .putp s = .next t) :
    s.stage = .idle ∧ ((s.pslot = .empty0 ∧ t = { s with pslot := .full PwmHandle.mk }) ∨
      (s.pslot ≠ .empty0 ∧ t = faulted s .slotRewrite)) := by
  obtain ⟨_, hs, h | ⟨c, h, ht⟩⟩ := startupOp_eq_next.mp h <;> cases hr : s.pslot <;>
    simp_all [faulted, Except.map]

theorem exec_enable_next {s t : State} (h : exec .enable s = .next t) :
    s.stage = .idle ∧ ((s.run = false ∧ t = { s with pwmEn := true }) ∨
      (s.run = true ∧ t = faulted s .owner)) := by
  obtain ⟨_, hs, h | ⟨c, h, ht⟩⟩ := startupOp_eq_next.mp h <;> cases hr : s.run <;>
    simp_all [owned, faulted]

theorem exec_listen_next {s t : State} (h : exec .listen s = .next t) :
    s.stage = .idle ∧ ((s.run = false ∧ t = { s with uie := true }) ∨
      (s.run = true ∧ t = faulted s .owner)) := by
  obtain ⟨_, hs, h | ⟨c, h, ht⟩⟩ := startupOp_eq_next.mp h <;> cases hr : s.run <;>
    simp_all [owned, faulted]

theorem exec_uev_next {s t : State} (h : exec .uev s = .next t) :
    t = { s with uif := uifAfterEvent s } := by
  obtain ⟨_, _, h⟩ := guarded_eq_next.mp h
  exact (Host.Outcome.next.inj h).symm

theorem exec_tick_next {s t : State} (h : exec .tick s = .next t) :
    tickEnabled s = true ∧
      ((∃ u d, invocation s = .ok (u, d) ∧ d ≤ u.cfg.maxDuty ∧
          t = { u with duty := d, out := u.out ++ [d] }) ∨
        ∃ c, invocation s = .error c ∧ t = faulted s c) := by
  obtain ⟨hf, he, h⟩ := guarded_eq_next.mp h
  refine ⟨he, ?_⟩
  cases hi : invocation s with
  | ok r =>
    rw [hi] at h
    obtain ⟨hd, ht⟩ := setDuty_eq_next.mp h
    exact Or.inl ⟨r.1, r.2, rfl, hd, ht⟩
  | error c =>
    rw [hi] at h
    simp only [raise_of_noFault c hf, Host.Outcome.next.injEq] at h
    exact Or.inr ⟨c, rfl, h.symm⟩

theorem exec_claim_next {s t : State} (h : exec .claim s = .next t) :
    tickEnabled s = true ∧
      ((∃ T, s.run = false ∧ s.tslot = .full T ∧ s.pslot = .full PwmHandle.mk ∧
          t = { s with pslot := .taken, tslot := .taken, tab := T, run := true, stage := .claimed }) ∨
        (bothFull s = false ∧ t = faulted s .slotEmpty)) := by
  obtain ⟨hf, he, h⟩ := guarded_eq_next.mp h
  rw [Bool.and_eq_true] at he
  refine ⟨he.1, ?_⟩
  obtain h | ⟨c, h, ht⟩ := (settle_eq_next hf).mp h
  · cases hc : claimSlots s with
    | error c => simp [hc, Except.map] at h
    | ok u =>
      obtain ⟨T, h1, h2, h3⟩ := claimSlots_eq_ok.mp hc
      refine Or.inl ⟨T, ?_, h1, h2, ?_⟩
      · simpa [bothFull, h1, h2] using he.2
      · simp only [hc, Except.map, Except.ok.injEq] at h
        rw [← h, h3]
  · cases hc : claimSlots s with
    | ok u => simp [hc, Except.map] at h
    | error c' =>
      simp only [hc, Except.map, Except.error.injEq] at h
      obtain ⟨h1, h2⟩ := claimSlots_error hc
      exact Or.inr ⟨h2, by rw [ht, ← h, h1]; rfl⟩

theorem exec_adv_next {s t : State} (h : exec .adv s = .next t) :
    advEnabled s = true ∧
      ((s.phase < 4 * s.cfg.n ∧
          t = { s with phase := advancedPhase s.cfg.n s.phase, stage := .advanced s.phase }) ∨
        (4 * s.cfg.n ≤ s.phase ∧ t = faulted s .phaseRange)) := by
  obtain ⟨hf, he, h⟩ := guarded_eq_next.mp h
  refine ⟨he, ?_⟩
  by_cases hp : 4 * s.cfg.n ≤ s.phase
  · simp only [advance, hp, if_true, Except.map, settle_error, raise_of_noFault _ hf,
      Host.Outcome.next.injEq] at h
    exact Or.inr ⟨hp, h.symm⟩
  · simp only [advance, hp, if_false, Except.map, settle_ok, Host.Outcome.next.injEq] at h
    exact Or.inl ⟨Nat.not_le.mp hp, h.symm⟩

theorem exec_ack_next {s t : State} (h : exec .ack s = .next t) :
    ∃ i, s.stage = .advanced i ∧ t = { s with uif := false, stage := .acked i } := by
  simp only [exec, execAck] at h
  split at h
  · obtain ⟨_, _, h⟩ := guarded_eq_next.mp h
    exact ⟨_, ‹_›, (Host.Outcome.next.inj h).symm⟩
  · exact nomatch (guarded_eq_next.mp h).2.1

theorem exec_fold_next {s t : State} (h : exec .fold s = .next t) :
    ∃ i, s.stage = .acked i ∧
      ((∃ d, foldStaged s i = .ok d ∧ t = { s with stage := .folded d }) ∨
        (foldStaged s i = .error .indexRange ∧ t = faulted s .indexRange)) := by
  simp only [exec, execFold] at h
  split at h
  · rename_i i hi
    refine ⟨i, hi, ?_⟩
    obtain ⟨hf, _, h⟩ := guarded_eq_next.mp h
    cases hd : foldStaged s i with
    | ok d =>
      simp only [hd, Except.map, settle_ok, Host.Outcome.next.injEq] at h
      exact Or.inl ⟨d, rfl, h.symm⟩
    | error c =>
      simp only [hd, Except.map, settle_error, raise_of_noFault _ hf, Host.Outcome.next.injEq] at h
      exact Or.inr ⟨by rw [(foldStaged_error hd).1], by rw [← h, (foldStaged_error hd).1]; rfl⟩
  · exact nomatch (guarded_eq_next.mp h).2.1

theorem exec_quad_next {s t : State} (h : exec .quad s = .next t) :
    ∃ i, s.stage = .acked i ∧ t = { s with stage := .decoded i (selectOf s.cfg.n i) } := by
  simp only [exec, execQuad] at h
  split at h
  · obtain ⟨_, _, h⟩ := guarded_eq_next.mp h
    exact ⟨_, ‹_›, (Host.Outcome.next.inj h).symm⟩
  · exact nomatch (guarded_eq_next.mp h).2.1

theorem exec_idx_next {s t : State} (h : exec .idx s = .next t) :
    ∃ i sel, s.stage = .decoded i sel ∧
      t = { s with stage := .indexed sel.zero (indexOf s.cfg.n i sel.quad) } := by
  simp only [exec, execIdx] at h
  split at h
  · obtain ⟨_, _, h⟩ := guarded_eq_next.mp h
    exact ⟨_, _, ‹_›, (Host.Outcome.next.inj h).symm⟩
  · exact nomatch (guarded_eq_next.mp h).2.1

theorem exec_lut_next {s t : State} (h : exec .lut s = .next t) :
    ∃ z j, s.stage = .indexed z j ∧
      ((∃ e, tabRead s j = .ok e ∧ t = { s with stage := .looked z e }) ∨
        (tabRead s j = .error .indexRange ∧ t = faulted s .indexRange)) := by
  simp only [exec, execLut] at h
  split at h
  · rename_i z j hj
    refine ⟨z, j, hj, ?_⟩
    obtain ⟨hf, _, h⟩ := guarded_eq_next.mp h
    cases hd : tabRead s j with
    | ok e =>
      simp only [hd, Except.map, settle_ok, Host.Outcome.next.injEq] at h
      exact Or.inl ⟨e, rfl, h.symm⟩
    | error c =>
      simp only [hd, Except.map, settle_error, raise_of_noFault _ hf, Host.Outcome.next.injEq] at h
      exact Or.inr ⟨by rw [tabRead_error hd], by rw [← h, tabRead_error hd]; rfl⟩
  · exact nomatch (guarded_eq_next.mp h).2.1

theorem exec_mux_next {s t : State} (h : exec .mux s = .next t) :
    ∃ z e, s.stage = .looked z e ∧ t = { s with stage := .folded (muxOf z e) } := by
  simp only [exec, execMux] at h
  split at h
  · obtain ⟨_, _, h⟩ := guarded_eq_next.mp h
    exact ⟨_, _, ‹_›, (Host.Outcome.next.inj h).symm⟩
  · exact nomatch (guarded_eq_next.mp h).2.1

theorem exec_setd_next {s t : State} (h : exec .setd s = .next t) :
    ∃ d, s.stage = .folded d ∧ d ≤ s.cfg.maxDuty ∧
      t = { s with duty := d, out := s.out ++ [d], stage := .idle } := by
  simp only [exec, execSetd] at h
  split at h
  · rename_i d hd
    obtain ⟨_, _, h⟩ := guarded_eq_next.mp h
    obtain ⟨h1, h2⟩ := setDuty_eq_next.mp h
    exact ⟨d, hd, h1, h2⟩
  · exact nomatch (guarded_eq_next.mp h).2.1

/-- What a step that answers a next state has done: one operation, in a state that differs in the
schedule only. -/
theorem step_next {s t : State} (h : step s = .next t) :
    s.cfg.wf = true ∧ ∃ i u, nextOperation s = .ok (i, u) ∧ u = { s with sched := u.sched } ∧
      exec i u = .next t := by
  unfold step at h
  split at h
  · rename_i hw
    split at h
    · rename_i i u hn
      exact ⟨hw, i, u, hn, nextOperation_ok s u i hn, h⟩
    · exact nomatch h
  · exact nomatch h

end Sys2Proof.Machine
end

