-- ==== Sys2Proof/Laws/PerInstr.lean ====
section
/-! SUPPORT. The family Mnemonic: each operation is well formed, is listed once, and its mnemonic names
it alone (spec/30_encoding.md R64, R71). -/

namespace Sys2Proof.Laws.Mnemonic

/-- What the family says of one operation. -/
def Statement (i : Instr) : Prop :=
  i.wf = true ∧ Instr.all.count i = 1 ∧ Instr.ofMnemonic i.mnemonic = some i

theorem idle : Statement .idle := by unfold Statement; decide
theorem getmax : Statement .getmax := by unfold Statement; decide
theorem build : Statement .build := by unfold Statement; decide
theorem putp : Statement .putp := by unfold Statement; decide
theorem enable : Statement .enable := by unfold Statement; decide
theorem listen : Statement .listen := by unfold Statement; decide
theorem uev : Statement .uev := by unfold Statement; decide
theorem tick : Statement .tick := by unfold Statement; decide
theorem claim : Statement .claim := by unfold Statement; decide
theorem adv : Statement .adv := by unfold Statement; decide
theorem ack : Statement .ack := by unfold Statement; decide
theorem fold : Statement .fold := by unfold Statement; decide
theorem quad : Statement .quad := by unfold Statement; decide
theorem idx : Statement .idx := by unfold Statement; decide
theorem lut : Statement .lut := by unfold Statement; decide
theorem mux : Statement .mux := by unfold Statement; decide
theorem setd : Statement .setd := by unfold Statement; decide

end Sys2Proof.Laws.Mnemonic
end

