-- ==== Sys2Proof/Tests/Slice0.lean ====
section
/-! SUPPORT. The model's own tests: words written out from spec/30_encoding.md R64, ill-formed terms, one
step on small states with the results of spec/95_test_vectors.md, and for every obligation with
hypotheses a witness that meets them. -/

namespace Sys2Proof.Tests

open Sys2Proof Sys2Proof.Machine

/-! ### Small states -/

/-- `N = 4`, `MAX_DUTY = 100`, the source's example (S1). -/
def cfg4 : Config := ⟨4, 100, 16, true, [0, 38, 71, 92, 100]⟩

/-- Reset under `cfg4`, with stand-ins for the two unspecified contents. -/
def atReset : State := { State.resetWith cfg4 with tab := [9, 9, 9, 9, 9], duty := 55 }

/-- Both slots filled and the event pending and armed: the first TICK is enabled. -/
def ready : State :=
  { atReset with tslot := .full cfg4.table, pslot := .full PwmHandle.mk, uif := true, uie := true }

/-- A running driver at phase `p`, its event pending. -/
def running (p : Nat) : State :=
  { atReset with
    run := true
    tab := cfg4.table
    tslot := .taken
    pslot := .taken
    uif := true
    uie := true
    phase := p }

/-- A running driver that has written its first duty, 0. -/
def afterFirst : State := { running 1 with out := [0], duty := 0 }

/-- The same inside its second invocation, ADV done. -/
def insideSecond : State := { running 2 with out := [0], duty := 0, stage := .advanced 1 }

/-- A running driver inside a split invocation. -/
def inStage (g : Stage) : State := { running 1 with stage := g }

/-- One field of the next state. -/
def nextIs {α : Type} [DecidableEq α] (r : Result) (f : State → α) (v : α) : Bool :=
  match r with
  | .next t => f t == v
  | _ => false

/-- The refusal an outcome carries. -/
def refusalOf : Result → Option Refusal
  | .refused r => some r
  | _ => none

/-- The fault an outcome carries. -/
def faultOf : Result → Option Fault
  | .fault r => some r
  | _ => none

/-! ### Decoding (R64, R68) -/

theorem test_decode_idle : decode 0b00000#5 = some .idle := by decide
theorem test_decode_getmax : decode 0b00001#5 = some .getmax := by decide
theorem test_decode_build : decode 0b00010#5 = some .build := by decide
theorem test_decode_putp : decode 0b00011#5 = some .putp := by decide
theorem test_decode_enable : decode 0b00100#5 = some .enable := by decide
theorem test_decode_listen : decode 0b00101#5 = some .listen := by decide
theorem test_decode_uev : decode 0b00110#5 = some .uev := by decide
theorem test_decode_tick : decode 0b00111#5 = some .tick := by decide
theorem test_decode_claim : decode 0b10000#5 = some .claim := by decide
theorem test_decode_adv : decode 0b10001#5 = some .adv := by decide
theorem test_decode_ack : decode 0b10010#5 = some .ack := by decide
theorem test_decode_fold : decode 0b10011#5 = some .fold := by decide
theorem test_decode_quad : decode 0b10100#5 = some .quad := by decide
theorem test_decode_idx : decode 0b10101#5 = some .idx := by decide
theorem test_decode_lut : decode 0b10110#5 = some .lut := by decide
theorem test_decode_mux : decode 0b10111#5 = some .mux := by decide
theorem test_decode_setd : decode 0b11000#5 = some .setd := by decide

theorem test_decode_refuses_reserved :
    decode 0b01000#5 = none ∧ decode 0b01111#5 = none ∧ decode 0b11001#5 = none ∧
      decode 0b11111#5 = none := by decide

theorem test_table_word : decodeTableWord 8 0x18 = some .setd ∧ decodeTableWord 8 0x38 = none := by
  decide

/-- Program P3's words (spec/95_test_vectors.md section 7). -/
theorem test_assemble_p3 :
    assemble [.startup, .event, .event, .op .uev, .op .uev, .op .tick, .event] =
      [1, 2, 3, 4, 5, 0, 6, 7, 6, 7, 6, 6, 7, 6, 7] := by decide

/-- Lines of programs P3 and P1, and a text that is none. -/
theorem test_parse_lines :
    parseLine "UEV            ; second event".toList = some (some (.op .uev)) ∧
      parseLine "EVENTS 17".toList = some (some (.events 17)) ∧
      parseLine "; only a comment".toList = some none ∧ parseLine "uev".toList = none ∧
      parseLine "EVENTS 0x11".toList = none := by decide

/-! ### Well-formedness: an ill-formed term for each check -/

theorem test_config_ok : cfg4.wf = true ∧ Config.hardware.wf = true := by decide
theorem test_config_n0_refused : Config.wf ⟨0, 100, 16, true, [0]⟩ = false := by decide
theorem test_config_maxDuty0_refused : Config.wf ⟨1, 0, 16, true, [0, 0]⟩ = false := by decide
theorem test_config_dutyW_refused : Config.wf ⟨1, 256, 8, true, [0, 256]⟩ = false := by decide
theorem test_config_length_refused : Config.wf ⟨2, 100, 16, true, [0, 71, 100, 100]⟩ = false := by decide
theorem test_config_first_refused : Config.wf ⟨2, 100, 16, true, [7, 71, 100]⟩ = false := by decide
theorem test_config_last_refused : Config.wf ⟨2, 100, 16, true, [0, 71, 99]⟩ = false := by decide
theorem test_config_order_refused : Config.wf ⟨3, 100, 16, true, [0, 87, 50, 100]⟩ = false := by decide
theorem test_badConfig_no_step :
    refusalOf (step { atReset with cfg := ⟨0, 100, 16, true, [0]⟩ }) = some .badConfig := by decide
theorem test_run_subop_refused : runWf [.uev, .claim] = false := by decide
theorem test_startup_canonical_ok : startupWf canonicalStartup = true := by decide
theorem test_startup_agent_refused : startupWf [.build, .putp, .uev, .listen] = false := by decide
theorem test_startup_noBuild_refused : startupWf [.putp, .listen] = false := by decide
theorem test_startup_twoPutp_refused : startupWf [.build, .putp, .putp, .listen] = false := by decide
theorem test_startup_twoListen_refused : startupWf [.build, .putp, .listen, .listen] = false := by decide
theorem test_startup_twoEnable_refused : startupWf [.enable, .enable, .build, .putp] = false := by decide
theorem test_startup_buildLate_refused : startupWf [.putp, .listen, .build] = false := by decide
theorem test_startup_putpLate_refused : startupWf [.build, .listen, .putp] = false := by decide
theorem test_startup_enableLate_refused : startupWf [.build, .putp, .listen, .enable] = false := by decide
theorem test_startup_getmaxLate_refused : startupWf [.build, .getmax, .putp, .listen] = false := by decide
theorem test_startup_afterListen_refused :
    onlyIdleAfter .listen [.listen, .idle, .getmax] = false := by decide
/-- R88: a program that goes on after its first IDLE, which R154 by itself would admit. -/
theorem test_startup_afterIdle_refused :
    startupWf [.idle, .build, .putp, .listen] = true ∧
      startupProgramWf [.idle, .build, .putp, .listen] = false ∧
      startupProgramWf (canonicalStartup ++ [.idle, .idle]) = true := by decide

/-! ### The operations (spec/95_test_vectors.md sections 3 to 6) -/

theorem test_getmax_returns : nextIs (exec .getmax atReset) State.got [100] = true := by decide
theorem test_getmax_owner : nextIs (exec .getmax (running 1)) State.fault .owner = true := by decide
theorem test_build_fills :
    nextIs (exec .build atReset) State.tslot (.full [0, 38, 71, 92, 100]) = true := by decide
theorem test_build_twice :
    nextIs (exec .build ready) (fun t => (t.fault, t.tslot)) (.slotRewrite, .full cfg4.table) = true := by
  decide
theorem test_putp_fills : nextIs (exec .putp atReset) State.pslot (.full PwmHandle.mk) = true := by decide
theorem test_putp_twice : nextIs (exec .putp ready) State.fault .slotRewrite = true := by decide
theorem test_enable_accepted_after_putp : nextIs (exec .enable ready) State.pwmEn true = true := by decide
theorem test_enable_owner :
    nextIs (exec .enable (running 1)) (fun t => (t.fault, t.pwmEn)) (.owner, false) = true := by decide
theorem test_listen_arms :
    nextIs (exec .listen { atReset with uif := true }) (fun t => (t.uif, t.uie)) (true, true) = true := by
  decide
theorem test_listen_owner : nextIs (exec .listen (running 1)) State.fault .owner = true := by decide
theorem test_idle_same : nextIs (exec .idle ready) id ready = true := by decide
theorem test_uev_latches_unarmed : nextIs (exec .uev atReset) State.uif true = true := by decide
theorem test_uev_dropped_unarmed :
    nextIs (exec .uev { atReset with cfg := { cfg4 with latchUnarmed := false } }) State.uif false = true := by
  decide
/-- R93's example: `PHASE = 5`, duty 92. -/
theorem test_tick_r93 :
    nextIs (exec .tick (running 5)) (fun t => (t.phase, t.uif, t.duty, t.out)) (6, false, 92, [92]) = true := by
  decide
/-- Section 6, the first TICK. -/
theorem test_tick_first :
    nextIs (exec .tick ready) (fun t => (t.run, t.tab, t.phase, t.out)) (true, cfg4.table, 1, [0]) = true := by
  decide
/-- Section 6: with `TSLOT = E` nothing else changes. -/
theorem test_tick_early :
    nextIs (exec .tick { ready with tslot := .empty0 }) id
      { ready with tslot := .empty0, fault := .slotEmpty } = true := by decide
theorem test_claim_takes :
    nextIs (exec .claim ready) (fun t => (t.tslot, t.pslot, t.stage)) (.taken, .taken, .claimed) = true := by
  decide
theorem test_claim_second : nextIs (exec .claim (running 1)) State.fault .slotEmpty = true := by decide
theorem test_adv_wraps :
    nextIs (exec .adv (running 15)) (fun t => (t.phase, t.stage)) (0, .advanced 15) = true := by decide
theorem test_adv_phaseRange : nextIs (exec .adv (running 16)) State.fault .phaseRange = true := by decide
theorem test_ack_clears :
    nextIs (exec .ack (inStage (.advanced 4))) (fun t => (t.uif, t.stage)) (false, .acked 4) = true := by decide
/-- R105's example: `i = 6` gives 71. -/
theorem test_fold_six : nextIs (exec .fold (inStage (.acked 6))) State.stage (.folded 71) = true := by decide
/-- Section 4: the forced zero against a table whose entry 0 is 7. -/
theorem test_fold_forced_zero : fold 4 [7, 38, 71, 92, 100] 0 = 0 ∧ fold 4 [7, 38, 71, 92, 100] 8 = 0 := by
  decide
/-- A stage with an illegal phase value (log 18): FOLD and IDX run. -/
theorem test_fold_idx_illegal_phase_run :
    (match exec .fold (inStage (.acked 16)) with | .next _ => true | _ => false) = true ∧
      (match exec .idx (inStage (.decoded 17 ⟨false, 3⟩)) with | .next _ => true | _ => false) = true := by
  decide
/-- MUX and SETD placed where `TAB` has no entry for the phase (log 19): the next state is theirs. -/
theorem test_placed_mux_runs_without_entry :
    (match step (({ running 3 with tab := [0, 38] } : State).withFetchWord 8 0x17) with
      | .next _ => true | _ => false) = true := by decide
/-- The case where LUT does hand an entry: `PHASE = 3` gives `TAB[3] = 92`. -/
theorem test_placed_entry :
    (placeOperation .mux (running 3)).stage = .looked false 92 ∧
      (placeOperation .setd (running 3)).stage = .folded 92 := by decide
theorem test_quad_peak :
    nextIs (exec .quad (inStage (.acked 12))) State.stage (.decoded 12 ⟨false, 3⟩) = true := by decide
theorem test_select_codes :
    (List.range 16).map (fun i => selectCode (selectOf 4 i)) =
      [4, 0, 0, 0, 1, 1, 1, 1, 6, 2, 2, 2, 3, 3, 3, 3] := by decide
theorem test_idx_falling :
    nextIs (exec .idx (inStage (.decoded 5 ⟨false, 1⟩))) State.stage (.indexed false 3) = true := by decide
theorem test_lut_reads :
    nextIs (exec .lut (inStage (.indexed false 2))) State.stage (.looked false 71) = true := by decide
theorem test_lut_indexRange :
    nextIs (exec .lut (inStage (.indexed false 5))) State.fault .indexRange = true := by decide
theorem test_mux_zero : nextIs (exec .mux (inStage (.looked true 71))) State.stage (.folded 0) = true := by decide
theorem test_mux_entry : nextIs (exec .mux (inStage (.looked false 71))) State.stage (.folded 71) = true := by
  decide
theorem test_setd_writes :
    nextIs (exec .setd (inStage (.folded 92))) (fun t => (t.duty, t.out, t.stage)) (92, [92], .idle) = true := by
  decide
theorem test_setd_refuses : refusalOf (exec .setd (inStage (.folded 101))) = some (.dutyRange 101) := by decide

/-- Section 4, `N = 4`: the sixteen duties of S2, and `N = 1`, `N = 2`. -/
theorem test_fold_sequences :
    (List.range 16).map (fold 4 cfg4.table) =
      [0, 38, 71, 92, 100, 92, 71, 38, 0, 38, 71, 92, 100, 92, 71, 38] ∧
    (List.range 4).map (fold 1 [0, 100]) = [0, 100, 0, 100] ∧
    (List.range 8).map (fold 2 [0, 71, 100]) = [0, 71, 100, 71, 0, 71, 100, 71] := by decide

theorem test_stopped : faultOf (exec .idle { atReset with fault := .owner }) = some (.stopped .owner) := by decide
theorem test_tick_not_enabled : refusalOf (exec .tick atReset) = some (.notEnabled .tick) := by decide
theorem test_step_takes_word :
    nextIs (step { atReset with sched := [0b00101#5, 0b00110#5] }) (fun t => (t.uie, t.sched)) (true, [6]) =
      true := by decide
theorem test_step_reserved :
    refusalOf (step { atReset with sched := [0b01010#5] }) = some (.reservedWord 10) := by decide
/-- Every row of the table runs as the first operation after reset. -/
theorem test_every_row_runs_from_reset :
    ∀ i ∈ Instr.all, (match step (State.reset.withFetchWord 8 (encode i).toNat) with
      | .next _ => true | _ => false) = true := by decide

/-! ### Witnesses: for every obligation with hypotheses, states and operands that meet them -/

theorem witness_AssembledTextDecodesToItsRun : decodeAll [5, 6, 7] = some [.listen, .uev, .tick] := by decide

theorem witness_StepRunsScheduledOperation :
    cfg4.wf = true ∧ decode 0b11000#5 = some .setd ∧ decode 0b11001#5 = none ∧ atReset.sched = [] ∧
      Config.wf ⟨0, 100, 16, true, [0]⟩ = false := by decide

theorem witness_PlacedWordRunsNext :
    atReset.cfg.wf = true ∧ Instr.listen.agent ≠ .driver ∧ Instr.adv ≠ .tick ∧ atReset.fault = .noFault ∧
      atReset.run = false := by decide

theorem witness_TabReadReturnsEntry :
    (running 1).tab.length = (running 1).cfg.n + 1 ∧ (running 1).run = true ∧ 4 ≤ (running 1).cfg.n ∧
      (running 1).cfg.n < 5 := by decide

theorem witness_SlotsArePutAndTakenOnce :
    slotTake (.full cfg4.table) = Except.ok (cfg4.table, Slot.taken) ∧
      slotPut .empty0 PwmHandle.mk = Except.ok (Slot.full PwmHandle.mk) ∧
      (∀ u, (.taken : Slot QuarterTable) ≠ .full u) := ⟨rfl, rfl, fun _ h => nomatch h⟩

/-- IdleChangesNothing: a run with IDLE steps between others, STARTUP parked by the first. -/
theorem witness_IdleChangesNothing :
    ready.fault = .noFault ∧ ready.stage = .idle ∧
      parkedAfterIdle (startupPart [.idle, .tick, .idle, .uev, .idle]) = true ∧
      nextIs (execAll [.idle, .tick, .idle, .uev, .idle] ready) (fun t => (t.out, t.uif)) ([0], true) = true := by
  decide

/-- GETMAX, BUILD, PUTP, ENABLE, LISTEN, IDLE, UEV: both sides of each check. -/
theorem witness_startup_operations :
    (atReset.fault = .noFault ∧ atReset.stage = .idle ∧ atReset.run = false ∧ atReset.tslot = .empty0 ∧
      atReset.pslot = .empty0) ∧
    ((running 1).fault = .noFault ∧ (running 1).stage = .idle ∧ (running 1).run = true ∧
      (running 1).tslot ≠ .empty0 ∧ (running 1).pslot ≠ .empty0) := by decide

/-- BUILD under a configuration whose table is the real sine's: `N = 1`, where only the two exact ends
of R78 occur. -/
theorem witness_BuildFillsTableSlot :
    sineTable ⟨1, 100, 16, true, [0, 100]⟩ ∧
      (State.resetWith ⟨1, 100, 16, true, [0, 100]⟩).tslot = .empty0 := by
  refine ⟨?_, rfl⟩
  have h0 : sineEntry 1 100 0 = 0 := by
    simp only [sineEntry]
    norm_num
  have h1 : sineEntry 1 100 1 = 100 := by
    simp only [sineEntry]
    norm_num
  simp [sineTable, List.range_succ, h0, h1]

theorem witness_EventSetsPendingFlag :
    (atReset.fault = .noFault ∧ atReset.cfg.latchUnarmed = true) ∧ (running 1).uif = true ∧
      atReset.uie = false := by decide

theorem witness_UnarmedEventByParameter :
    atReset.fault = .noFault ∧ atReset.stage = .idle ∧ atReset.run = false ∧ atReset.uie = false ∧
      atReset.uif = false := by decide

/-- The running TICK, at both ends of the phase range and at the zero crossings and peaks (R66). -/
theorem witness_TickWritesFoldedDuty :
    ∀ p ∈ [0, 1, 3, 4, 7, 8, 9, 11, 12, 15], (running p).fault = .noFault ∧ (running p).stage = .idle ∧
      (running p).uif = true ∧ (running p).uie = true ∧ (running p).run = true ∧
      (running p).phase < 4 * (running p).cfg.n ∧ (running p).tab.length = (running p).cfg.n + 1 ∧
      (∀ d ∈ (running p).tab, d ≤ (running p).cfg.maxDuty) := by decide

theorem witness_FirstTickClaimsAndWrites :
    ready.fault = .noFault ∧ ready.stage = .idle ∧ ready.uif = true ∧ ready.uie = true ∧ ready.run = false ∧
      ready.tslot = .full cfg4.table ∧ ready.pslot = .full PwmHandle.mk ∧ ready.phase < 4 * ready.cfg.n ∧
      cfg4.table.length = ready.cfg.n + 1 ∧ ∀ d ∈ cfg4.table, d ≤ ready.cfg.maxDuty := by decide

theorem witness_EarlyTickRaisesSlotEmpty :
    ({ ready with tslot := .empty0 } : State).run = false ∧
      (∀ T, ({ ready with tslot := .empty0 } : State).tslot ≠ .full T) ∧
      (∀ h, ({ ready with pslot := .empty0 } : State).pslot ≠ .full h) :=
  ⟨rfl, (fun _ h => nomatch h), fun _ h => nomatch h⟩

theorem witness_TickChecksInOrder :
    bothFull { ready with pslot := .empty0 } = false ∧
      (bothFull { ready with phase := 16 } = true ∧ 4 * ready.cfg.n ≤ 16) ∧
      (({ running 1 with tab := [0] } : State).tab.length ≤ 1 ∧ 1 < (running 1).cfg.n) := by decide

theorem witness_TickNeedsArmedEvent :
    atReset.uif = false ∧ (inStage .claimed).stage ≠ .idle ∧
      nextIs (exec .tick (running 5)) State.fault .noFault = true := by decide

/-- The invariant holds in a running state with one duty written. -/
theorem witness_StateInv : StateInv afterFirst where
  config := by decide
  tabLength := by decide
  tslotTaken := by decide
  pslotTaken := by decide
  slotTable := fun _ h => nomatch h
  claimedTable := fun _ => rfl
  armed := fun _ => rfl
  claimedFirst := fun _ => rfl
  writtenAfterClaim := fun _ => rfl
  position := (rfl : afterFirst.phase = 1 % 16)
  output := by decide
  lastDuty := fun d h => by simpa [afterFirst] using h
  results := fun m h => nomatch h
  faults := by decide

/-- RunningTickNeverFaults, StepKeepsInvariant: an enabled TICK in a state that meets the invariant. -/
theorem witness_RunningTickNeverFaults :
    StateInv afterFirst ∧ tickEnabled afterFirst = true ∧ afterFirst.run = true ∧
      nextIs (step afterFirst) State.out [0, 38] = true :=
  ⟨witness_StateInv, by decide⟩

/-- An invocation in progress in a state that meets the invariant, with nothing scheduled. -/
theorem witness_InvocationRunsToCompletion :
    StateInv insideSecond ∧ insideSecond.stage ≠ .idle ∧ insideSecond.sched = [] ∧
      insideSecond.fault = .noFault :=
  ⟨{ config := by decide
     tabLength := by decide
     tslotTaken := by decide
     pslotTaken := by decide
     slotTable := fun _ h => nomatch h
     claimedTable := fun _ => rfl
     armed := fun _ => rfl
     claimedFirst := fun _ => rfl
     writtenAfterClaim := fun _ => rfl
     position := ⟨(rfl : 1 = 1 % 16), (rfl : insideSecond.phase = 2 % 16)⟩
     output := by decide
     lastDuty := fun d h => by simpa [insideSecond] using h
     results := fun m h => nomatch h
     faults := by decide }, by decide⟩

theorem witness_PendingEventsAreNotCounted :
    nextIs (execAll [.uev, .uev, .tick] (running 5)) State.phase 6 = true := by decide

theorem witness_ClaimTakesBothSlots :
    tickEnabled ready = true ∧ bothFull ready = true ∧ ready.run = false ∧ bothFull (running 1) = false ∧
      bothFull { ready with run := true } = true := by decide

theorem witness_AdvanceStepsPhase :
    (inStage .claimed).stage = .claimed ∧ (tickEnabled (running 15) = true ∧ (running 15).run = true) ∧
      (running 15).phase < 4 * cfg4.n ∧ 4 * cfg4.n ≤ (running 16).phase := by decide

/-- The hand-overs of ACK, FOLD, QUAD, IDX, LUT, MUX and SETD. -/
theorem witness_split_stages :
    (inStage (.advanced 15)).stage = .advanced 15 ∧ (inStage (.acked 15)).stage = .acked 15 ∧
      15 < 4 * cfg4.n ∧ (inStage (.decoded 4 ⟨false, 1⟩)).stage = .decoded 4 ⟨false, 1⟩ ∧
      (inStage (.acked 16)).stage = .acked 16 ∧ 4 * cfg4.n ≤ 16 ∧ 4 ≤ 2 * cfg4.n ∧
      (inStage (.indexed false 4)).stage = .indexed false 4 ∧ cfg4.n < 5 ∧
      (inStage (.looked true 7)).stage = .looked true 7 ∧ (inStage (.folded 100)).stage = .folded 100 ∧
      100 ≤ cfg4.maxDuty ∧ cfg4.maxDuty < 101 ∧ (inStage .claimed).fault = .noFault := by decide

/-- FoldByFiveCases, QuadThenIndex: FOLD at both ends of each of the five cases (R66), with the duty of
spec/95_test_vectors.md section 4, and after the last phase value. -/
theorem witness_FoldByFiveCases :
    (∀ c ∈ [(0, 0), (1, 38), (3, 92), (4, 100), (7, 38), (8, 0), (9, 38), (11, 92), (12, 100), (15, 38)],
      (inStage (.acked c.1)).fault = .noFault ∧ (inStage (.acked c.1)).stage = .acked c.1 ∧
        (inStage (.acked c.1)).run = true ∧ c.1 < 4 * cfg4.n ∧
        (inStage (.acked c.1)).tab.length = cfg4.n + 1 ∧
        nextIs (exec .fold (inStage (.acked c.1))) State.stage (.folded c.2) = true) ∧
      4 * cfg4.n ≤ 16 ∧ (inStage (.acked 16)).stage = .acked 16 := by decide

/-- QuadThenIndex and LookupThenMux: IDX in each quadrant at the ends of its range, LUT at indices 0 and
`N` and above, MUX with both selects. -/
theorem witness_QuadThenIndex_LookupThenMux :
    (∀ c ∈ [(0, 0, 0), (3, 0, 3), (4, 1, 4), (7, 1, 1), (8, 2, 0), (11, 2, 3), (12, 3, 4), (15, 3, 1)],
      nextIs (exec .idx (inStage (.decoded c.1 ⟨false, c.2.1⟩))) State.stage (.indexed false c.2.2) = true) ∧
      nextIs (exec .lut (inStage (.indexed true 0))) State.stage (.looked true 0) = true ∧
      nextIs (exec .lut (inStage (.indexed false 4))) State.stage (.looked false 100) = true ∧
      nextIs (exec .lut (inStage (.indexed false 5))) State.fault .indexRange = true ∧
      nextIs (exec .mux (inStage (.looked true 7))) State.stage (.folded 0) = true ∧
      nextIs (exec .mux (inStage (.looked false 7))) State.stage (.folded 7) = true := by decide

theorem witness_OutOfPlaceIsNotEnabled :
    refusalOf (exec .putp (inStage .claimed)) = some (.notEnabled .putp) ∧
      tickEnabled (inStage .claimed) = false ∧ (tickEnabled atReset && atReset.run) = false ∧
      refusalOf (exec .lut (running 1)) = some (.notEnabled .lut) := by decide

theorem witness_SplitTickRefinesTick :
    nextIs (execAll (tickOps ready.run) ready) State.fault .noFault = true ∧
      nextIs (execAll (tickStageOps true) (running 15)) (fun t => (t.phase, t.out)) (0, [38]) = true := by
  decide

theorem witness_EventInsideInvocation :
    nextIs (execAll [.adv, .uev, .ack, .fold, .setd] (running 5)) State.uif false = true ∧
      nextIs (execAll [.adv, .ack, .uev, .fold, .setd] (running 5)) State.uif true = true := by decide

/-- FaultsOnlyFromTheirRaisers: each code raised, and the outcome `fault`. -/
theorem witness_FaultsOnlyFromTheirRaisers :
    nextIs (exec .tick { ready with pslot := .empty0 }) State.fault .slotEmpty = true ∧
      nextIs (exec .putp ready) State.fault .slotRewrite = true ∧
      nextIs (exec .listen (running 1)) State.fault .owner = true ∧
      nextIs (exec .tick (running 16)) State.fault .phaseRange = true ∧
      nextIs (exec .lut (inStage (.indexed false 5))) State.fault .indexRange = true ∧
      nextIs (exec .tick { running 3 with tab := [0, 38] }) State.fault .indexRange = true ∧
      nextIs (exec .fold { inStage (.acked 3) with tab := [0, 38] }) State.fault .indexRange = true ∧
      faultOf (exec .mux { ready with fault := .slotEmpty }) = some (.stopped .slotEmpty) := by decide

/-- A whole-machine rule's next states: one with a fault recorded, one without. -/
theorem witness_exec_next :
    nextIs (exec .enable (running 1)) State.fault .owner = true ∧
      nextIs (exec .setd (inStage (.folded 1))) State.fault .noFault = true ∧
      ({ atReset with fault := .slotEmpty } : State).fault ≠ .noFault ∧
      atReset.run = false ∧ atReset.stage = .idle := by decide

theorem witness_laws_of_the_fold :
    1 ≤ cfg4.n ∧ 15 < 4 * cfg4.n ∧ cfg4.table[0]? = some 0 ∧ cfg4.table.length = cfg4.n + 1 ∧
      7 < 2 * cfg4.n ∧ cfg4.wf = true ∧ 4 * cfg4.n < 2 ^ 5 := by decide

/-- OutputIsWaveformOfTicks and WellFormedStartupNeverFaults: a run from reset with a well-formed
start-up part and one event. -/
theorem witness_runs_from_reset :
    ([.build, .putp, .uev, .listen, .tick] : List Instr).all Instr.schedulable = true ∧
      startupWf (startupPart [.build, .putp, .uev, .listen, .tick]) = true ∧
      nextIs (execAll [.build, .putp, .uev, .listen, .tick] (State.resetWith cfg4))
        (fun t => (t.fault, t.out)) (.noFault, [0]) = true := by decide

end Sys2Proof.Tests
end

section
/-! The widths of R9: `ceilLog2 (m + 1)` is the least number of bits that holds `m`, from which follow
the widths of the phase word (R58) and of the index word (R60) and the values those words keep. -/

namespace Sys2Proof.Machine

/-- The characterisation of `ceilLog2` that the model's widths rest on. -/
theorem ceilLog2_succ_le_iff (m w : Nat) : ceilLog2 (m + 1) ≤ w ↔ m < 2 ^ w := by
  rcases Nat.eq_zero_or_pos m with rfl | hm
  · simp [ceilLog2]
  · have hbits : ceilLog2 (m + 1) = Nat.log2 m + 1 := by
      simp [ceilLog2, Nat.pos_iff_ne_zero.mp hm]
    rw [hbits, Nat.succ_le_iff]
    exact Nat.log2_lt hm.ne'

theorem phaseW_le_iff (n w : Nat) : phaseW n ≤ w ↔ 4 * n < 2 ^ w :=
  ceilLog2_succ_le_iff (4 * n) w

theorem idxW_le_iff (n w : Nat) : idxW n ≤ w ↔ n < 2 ^ w :=
  ceilLog2_succ_le_iff n w

theorem four_mul_lt_two_pow_phaseW (n : Nat) : 4 * n < 2 ^ phaseW n :=
  (phaseW_le_iff n _).mp le_rfl

theorem lt_two_pow_idxW (n : Nat) : n < 2 ^ idxW n :=
  (idxW_le_iff n _).mp le_rfl

theorem phaseWord_toNat {n i : Nat} (hi : i ≤ 4 * n) : (phaseWord n i).toNat = i :=
  (BitVec.toNat_ofNat _ _).trans (Nat.mod_eq_of_lt (hi.trans_lt (four_mul_lt_two_pow_phaseW n)))

theorem indexWord_toNat {n j : Nat} (hj : j ≤ n) : (indexWord n j).toNat = j :=
  (BitVec.toNat_ofNat _ _).trans (Nat.mod_eq_of_lt (hj.trans_lt (lt_two_pow_idxW n)))

/-- Settles O45: both widths are a `ceilLog2`, which is the least width by `ceilLog2_succ_le_iff`; that
each width is itself one that fits gives the words' values, and the numbers for `N = 50` are evaluated. -/
theorem leastWidths : Obligations.LeastWidths := by
  unfold Obligations.LeastWidths
  have widths_of_fifty : phaseW 50 = 8 ∧ idxW 50 = 6 := by decide
  exact ⟨fun n w _ => phaseW_le_iff n w, fun n w _ => idxW_le_iff n w,
    fun _ _ _ hi => phaseWord_toNat hi, fun _ _ _ hj => indexWord_toNat hj, widths_of_fifty⟩

end Sys2Proof.Machine
end

section
/-! What a well-formed configuration says (R78, R131), and the arithmetic of ADV and FOLD on a phase value
in range (R97, R105, R120). -/

namespace Sys2Proof

theorem nondecreasing_iff_isChain (l : List Nat) : nondecreasing l = true ↔ l.IsChain (· ≤ ·) := by
  induction l with
  | nil => simp [nondecreasing]
  | cons a l ih => cases l <;> simp_all [nondecreasing]

/-- The checks of R131 (b) and of log 5, one by one. -/
theorem Config.wf_iff (c : Config) : c.wf = true ↔
    (1 ≤ c.n ∧ 0 < c.maxDuty ∧ c.maxDuty < 2 ^ c.dutyW) ∧ c.table.length = c.n + 1 ∧
      c.table[0]? = some 0 ∧ c.table[c.n]? = some c.maxDuty ∧ c.table.IsChain (· ≤ ·) := by
  simp [Config.wf, Config.paramsOk, Config.tableOk, nondecreasing_iff_isChain, and_assoc]

theorem Config.one_le_n {c : Config} (h : c.wf = true) : 1 ≤ c.n :=
  (c.wf_iff.mp h).1.1

theorem Config.maxDuty_lt {c : Config} (h : c.wf = true) : c.maxDuty < 2 ^ c.dutyW :=
  (c.wf_iff.mp h).1.2.2

theorem Config.table_length {c : Config} (h : c.wf = true) : c.table.length = c.n + 1 :=
  (c.wf_iff.mp h).2.1

/-- Property (d) of R78: the last entry, `MAX_DUTY`, is the greatest. -/
theorem Config.table_le_maxDuty {c : Config} (h : c.wf = true) : ∀ d ∈ c.table, d ≤ c.maxDuty := by
  obtain ⟨-, hlen, -, hlast, hchain⟩ := c.wf_iff.mp h
  intro d hd
  obtain ⟨j, hj, rfl⟩ := List.getElem_of_mem hd
  obtain ⟨hn, hmax⟩ := List.getElem?_eq_some_iff.mp hlast
  have hmono := (List.pairwise_iff_getElem.mp hchain.pairwise) j c.n hj hn
  rcases Nat.lt_or_eq_of_le (show j ≤ c.n by omega) with hlt | rfl
  · exact hmax ▸ hmono hlt
  · exact hmax.le

namespace Machine

/-- ADV's comparison is the remainder, for a phase value in range (R97). -/
theorem advancedPhase_of_lt {n i : Nat} (h : i < 4 * n) : advancedPhase n i = (i + 1) % (4 * n) := by
  unfold advancedPhase
  split
  · next hlast => rw [hlast, Nat.mod_self]
  · exact (Nat.mod_eq_of_lt (by omega)).symm

/-- `k mod 4N` advances to `(k + 1) mod 4N` (R40). -/
theorem advancedPhase_mod {n : Nat} (hn : 1 ≤ n) (k : Nat) :
    advancedPhase n (k % (4 * n)) = (k + 1) % (4 * n) := by
  rw [advancedPhase_of_lt (Nat.mod_lt k (by omega)), Nat.mod_add_mod]

/-- The index of a phase value in range names an entry of the table (R120). -/
theorem indexOf_quadOf_le {n i : Nat} (h : i < 4 * n) : indexOf n i (quadOf n i) ≤ n := by
  unfold quadOf
  split_ifs <;> simp only [indexOf]
  · omega
  all_goals
    rw [if_pos (by omega)]
    omega

/-- The fold of R105 is the mux of the entry at the index of R109, quadrant by quadrant. -/
theorem fold_eq_muxOf {n i : Nat} (h : i < 4 * n) (T : QuarterTable) :
    fold n T i = muxOf (zeroOf n i) (T.getD (indexOf n i (quadOf n i)) 0) := by
  by_cases hz : i = 0 ∨ i = 2 * n
  · simp [fold, muxOf, zeroOf, hz]
  · simp only [fold, muxOf, zeroOf, hz, quadOf, h, if_false, decide_false, Bool.false_eq_true, if_true]
    split_ifs <;> simp only [indexOf] <;> rw [if_pos (by omega)]

/-- FOLD's stages answer the fold on a table of `N + 1` entries (R106). -/
theorem foldStaged_eq_fold {s : State} {i : Nat} (hlen : s.tab.length = s.cfg.n + 1)
    (h : i < 4 * s.cfg.n) : foldStaged s i = .ok (fold s.cfg.n s.tab i) := by
  have hj := indexOf_quadOf_le h
  have hread := tabRead_eq_ok.mpr ⟨hj, List.getElem?_eq_getElem (show _ < s.tab.length by omega)⟩
  rw [foldStaged_of_lt h, hread, fold_eq_muxOf h, List.getD_eq_getElem _ _ (by omega)]
  rfl

/-- The fold of a table answers one of its entries or 0, so it keeps a bound on the entries (R119). -/
theorem fold_le {n i m : Nat} {T : QuarterTable} (h : i < 4 * n) (hT : ∀ d ∈ T, d ≤ m) :
    fold n T i ≤ m := by
  rw [fold_eq_muxOf h, muxOf]
  split
  · exact Nat.zero_le m
  · rw [List.getD_eq_getElem?_getD]
    cases hd : T[indexOf n i (quadOf n i)]? with
    | none => exact Nat.zero_le m
    | some d => exact hT d (List.mem_of_getElem? hd)

@[simp] theorem waveform_zero (c : Config) : waveform c 0 = [] := rfl

/-- One more duty of the waveform folds the next phase value (R100). -/
theorem waveform_succ (c : Config) (k : Nat) :
    waveform c (k + 1) = waveform c k ++ [fold c.n c.table (k % (4 * c.n))] := by
  simp [waveform, List.range_succ]

end Machine
end Sys2Proof
end

section
/-! The invariant of spec/10_state.md section 9. First what it says of a state, then one lemma per kind of
write, then each operation is one of these writes by its inversion lemma. -/

namespace Sys2Proof.Machine

@[simp] theorem waveform_length (c : Config) (k : Nat) : (waveform c k).length = k := by
  simp [waveform]

/-- A claim, needed or not, by its two cases (R93, R94). -/
theorem claimIfNeeded_eq_ok {s u : State} : claimIfNeeded s = .ok u ↔
    (s.run = true ∧ u = s) ∨ (s.run = false ∧ ∃ T, s.tslot = .full T ∧ s.pslot = .full PwmHandle.mk ∧
      u = { s with pslot := .taken, tslot := .taken, tab := T, run := true }) := by
  cases hr : s.run
  · simp [claimIfNeeded, hr, claimSlots_eq_ok]
  · simp [claimIfNeeded, hr, eq_comm]

/-- TICK's condition, flag by flag (R93, R140). -/
theorem tickEnabled_iff {s : State} :
    tickEnabled s = true ↔ s.stage = .idle ∧ s.uif = true ∧ s.uie = true := by
  simp [tickEnabled, and_assoc]

namespace StateInv

variable {s : State}

theorem one_le_n (h : StateInv s) : 1 ≤ s.cfg.n := Config.one_le_n h.config

theorem mod_lt (h : StateInv s) (k : Nat) : k % (4 * s.cfg.n) < 4 * s.cfg.n :=
  Nat.mod_lt k (by have := h.one_le_n; omega)

/-- Outside an invocation, and after its CLAIM, `PHASE` is the number of duties modulo `4N` (R40). -/
theorem phase_eq (h : StateInv s) (hs : s.stage = .idle ∨ s.stage = .claimed) :
    s.phase = s.out.length % (4 * s.cfg.n) := by
  have hp := h.position
  rcases hs with hs | hs <;> simpa only [positionOk, hs] using hp

/-- Inside an invocation after ADV, `PHASE` is one ahead (R97). -/
theorem phase_eq_succ (h : StateInv s) (hi : s.stage ≠ .idle) (hc : s.stage ≠ .claimed) :
    s.phase = (s.out.length + 1) % (4 * s.cfg.n) := by
  have hp := h.position
  cases hs : s.stage <;> simp_all [positionOk]

/-- `PHASE` is in range in every state of the invariant (R35). -/
theorem phase_lt (h : StateInv s) : s.phase < 4 * s.cfg.n := by
  by_cases hs : s.stage = .idle ∨ s.stage = .claimed
  · exact h.phase_eq hs ▸ h.mod_lt _
  · rw [not_or] at hs
    exact h.phase_eq_succ hs.1 hs.2 ▸ h.mod_lt _

/-! ### One lemma per kind of write -/

/-- Recording one of the three start-up faults keeps the invariant (R126, R130). -/
theorem record_fault (h : StateInv s) {c : FaultCode} (hp : c ≠ .phaseRange) (hi : c ≠ .indexRange) :
    StateInv (faulted s c) :=
  { h with faults := ⟨hp, hi⟩ }

/-- The schedule is not of the invariant. -/
theorem set_sched (h : StateInv s) (l : List OpWord) : StateInv { s with sched := l } := { h with }

theorem record_max (h : StateInv s) : StateInv { s with got := s.got ++ [s.cfg.maxDuty] } :=
  { h with results := by simpa [or_imp, forall_and] using h.results }

theorem fill_tslot (h : StateInv s) (he : s.tslot = .empty0) :
    StateInv { s with tslot := .full s.cfg.table } :=
  { h with
    tslotTaken := by simpa [he] using h.tslotTaken
    slotTable := fun _ ht => (Slot.full.inj ht).symm }

theorem fill_pslot (h : StateInv s) (he : s.pslot = .empty0) :
    StateInv { s with pslot := .full PwmHandle.mk } :=
  { h with pslotTaken := by simpa [he] using h.pslotTaken }

theorem set_pwmEn (h : StateInv s) : StateInv { s with pwmEn := true } := { h with }

theorem set_uie (h : StateInv s) : StateInv { s with uie := true } := { h with armed := fun _ => rfl }

theorem set_uif (h : StateInv s) (b : Bool) : StateInv { s with uif := b } := { h with }

/-- The claim moves the configuration's table into `TAB` (R36, R37, R94). -/
theorem claim_slots (h : StateInv s) (hidle : s.stage = .idle) (harmed : s.uie = true) {T : QuarterTable}
    (hT : s.tslot = .full T) :
    StateInv { s with pslot := .taken, tslot := .taken, tab := T, run := true } :=
  have hTab : T = s.cfg.table := h.slotTable T hT
  { h with
    tabLength := hTab ▸ Config.table_length h.config
    tslotTaken := by simp
    pslotTaken := by simp
    slotTable := fun _ ht => nomatch ht
    claimedTable := fun _ => hTab
    armed := fun _ => harmed
    claimedFirst := fun _ => rfl
    writtenAfterClaim := fun _ => rfl
    position := by simpa only [positionOk, hidle] using h.phase_eq (.inl hidle) }

/-- A sub-operation of a claimed invocation that leaves `PHASE` and the transients in agreement. -/
theorem set_transients (h : StateInv s) (hrun : s.run = true) {p : Nat} {b : Bool} {g : Stage}
    (hpos : positionOk { s with phase := p, uif := b, stage := g }) :
    StateInv { s with phase := p, uif := b, stage := g } :=
  { h with claimedFirst := fun _ => hrun, position := hpos }

/-- The duty write that ends an invocation appends the waveform's next duty (R100, R115). -/
theorem write_duty (h : StateInv s) (hrun : s.run = true) {p : Nat} {b : Bool} {d : Duty} {g : Stage}
    (hphase : p = (s.out.length + 1) % (4 * s.cfg.n))
    (hduty : d = fold s.cfg.n s.tab (s.out.length % (4 * s.cfg.n))) (hidle : g = .idle) :
    StateInv { s with phase := p, uif := b, duty := d, out := s.out ++ [d], stage := g } :=
  have hlen : (s.out ++ [d]).length = s.out.length + 1 := List.length_append
  { h with
    claimedFirst := fun _ => hrun
    writtenAfterClaim := fun _ => hrun
    position := by simpa only [positionOk, hidle, hlen] using hphase
    output := by
      show s.out ++ [d] = waveform s.cfg (s.out ++ [d]).length
      rw [hlen, waveform_succ, ← h.output, hduty, h.claimedTable hrun]
    lastDuty := by simp }

/-- An invocation that needs its claim may make it: the state it goes on from meets the invariant and has
`RUN = 1` (R93). -/
theorem of_claimIfNeeded (h : StateInv s) (hen : tickEnabled s = true) {u : State}
    (hu : claimIfNeeded s = .ok u) : StateInv u ∧ u.run = true ∧ u.stage = .idle := by
  obtain ⟨hidle, -, harmed⟩ := tickEnabled_iff.mp hen
  obtain ⟨hrun, rfl⟩ | ⟨-, T, hT, -, rfl⟩ := claimIfNeeded_eq_ok.mp hu
  · exact ⟨h, hrun, hidle⟩
  · exact ⟨h.claim_slots hidle harmed hT, rfl, hidle⟩

/-! ### The operations with transients -/

/-- A table read of the invocation in progress finds its entry (R120, R130). -/
theorem tabRead_ne_error (h : StateInv s) {j : Nat} (hj : j ≤ s.cfg.n) {c : FaultCode} :
    tabRead s j ≠ .error c := by
  intro he
  have hcause := tabRead_error_cause he
  have hlen := h.tabLength
  omega

/-- An invocation from a state of the invariant raises SlotEmpty if anything (R130). -/
theorem invocation_error_slotEmpty (h : StateInv s) (hen : tickEnabled s = true) {c : FaultCode}
    (he : invocation s = .error c) : c = .slotEmpty := by
  obtain ⟨hc, -⟩ | ⟨u, hu, ⟨-, hp⟩ | ⟨-, hp, hread⟩⟩ := invocation_error he
  · exact hc
  · exact absurd hp (h.of_claimIfNeeded hen hu).1.phase_lt.not_ge
  · exact absurd hread ((h.of_claimIfNeeded hen hu).1.tabRead_ne_error (indexOf_quadOf_le hp))

theorem exec_tick {t : State} (h : StateInv s) (ht : exec .tick s = .next t) : StateInv t := by
  obtain ⟨hen, ⟨v, d, hv, -, rfl⟩ | ⟨c, hc, rfl⟩⟩ := exec_tick_next ht
  · obtain ⟨u, hu, hlt, hd, rfl⟩ := invocation_eq_ok.mp hv
    obtain ⟨hinv, hrun, hidle⟩ := h.of_claimIfNeeded hen hu
    have hphase := hinv.phase_eq (.inl hidle)
    rw [foldStaged_eq_fold hinv.tabLength hlt, hphase] at hd
    exact hinv.write_duty hrun (by rw [hphase, advancedPhase_mod hinv.one_le_n]) (Except.ok.inj hd).symm hidle
  · obtain rfl := h.invocation_error_slotEmpty hen hc
    exact h.record_fault nofun nofun

theorem exec_claim {t : State} (h : StateInv s) (ht : exec .claim s = .next t) : StateInv t := by
  obtain ⟨hen, ⟨T, -, hT, -, rfl⟩ | ⟨-, rfl⟩⟩ := exec_claim_next ht
  · obtain ⟨hidle, -, harmed⟩ := tickEnabled_iff.mp hen
    exact (h.claim_slots hidle harmed hT).set_transients rfl (h.phase_eq (.inl hidle))
  · exact h.record_fault nofun nofun

/-- Where ADV may stand `RUN` is 1 and no later stage is in progress (R93). -/
theorem of_advEnabled (h : StateInv s) (hen : advEnabled s = true) :
    s.run = true ∧ (s.stage = .idle ∨ s.stage = .claimed) := by
  simp only [advEnabled, Bool.or_eq_true, decide_eq_true_eq, Bool.and_eq_true] at hen
  obtain hs | ⟨ht, hrun⟩ := hen
  · exact ⟨h.claimedFirst (by simp [hs]), .inr hs⟩
  · exact ⟨hrun, .inl (tickEnabled_iff.mp ht).1⟩

theorem exec_adv {t : State} (h : StateInv s) (ht : exec .adv s = .next t) : StateInv t := by
  obtain ⟨hen, ⟨-, rfl⟩ | ⟨hp, -⟩⟩ := exec_adv_next ht
  · obtain ⟨hrun, hstage⟩ := h.of_advEnabled hen
    have hphase := h.phase_eq hstage
    exact h.set_transients hrun ⟨hphase, by rw [hphase, advancedPhase_mod h.one_le_n]⟩
  · exact absurd hp h.phase_lt.not_ge

theorem exec_ack {t : State} (h : StateInv s) (ht : exec .ack s = .next t) : StateInv t := by
  obtain ⟨i, hs, rfl⟩ := exec_ack_next ht
  have hpos := h.position
  simp only [positionOk, hs] at hpos
  exact h.set_transients (h.claimedFirst (by simp [hs])) hpos

theorem exec_fold {t : State} (h : StateInv s) (ht : exec .fold s = .next t) : StateInv t := by
  obtain ⟨i, hs, hres⟩ := exec_fold_next ht
  have hpos := h.position
  simp only [positionOk, hs] at hpos
  obtain ⟨rfl, hphase⟩ := hpos
  rw [foldStaged_eq_fold h.tabLength (h.mod_lt _)] at hres
  obtain ⟨d, hd, rfl⟩ | ⟨hd, -⟩ := hres
  · exact h.set_transients (h.claimedFirst (by simp [hs])) ⟨(Except.ok.inj hd).symm, hphase⟩
  · exact nomatch hd

theorem exec_quad {t : State} (h : StateInv s) (ht : exec .quad s = .next t) : StateInv t := by
  obtain ⟨i, hs, rfl⟩ := exec_quad_next ht
  have hpos := h.position
  simp only [positionOk, hs] at hpos
  obtain ⟨rfl, hphase⟩ := hpos
  exact h.set_transients (h.claimedFirst (by simp [hs])) ⟨rfl, rfl, hphase⟩

theorem exec_idx {t : State} (h : StateInv s) (ht : exec .idx s = .next t) : StateInv t := by
  obtain ⟨i, sel, hs, rfl⟩ := exec_idx_next ht
  have hpos := h.position
  simp only [positionOk, hs] at hpos
  obtain ⟨rfl, rfl, hphase⟩ := hpos
  exact h.set_transients (h.claimedFirst (by simp [hs])) ⟨rfl, rfl, hphase⟩

theorem exec_lut {t : State} (h : StateInv s) (ht : exec .lut s = .next t) : StateInv t := by
  obtain ⟨z, j, hs, hres⟩ := exec_lut_next ht
  have hpos := h.position
  simp only [positionOk, hs] at hpos
  obtain ⟨rfl, rfl, hphase⟩ := hpos
  obtain ⟨e, he, rfl⟩ | ⟨he, -⟩ := hres
  · exact h.set_transients (h.claimedFirst (by simp [hs])) ⟨rfl, (tabRead_eq_ok.mp he).2, hphase⟩
  · exact absurd he (h.tabRead_ne_error (indexOf_quadOf_le (h.mod_lt _)))

theorem exec_mux {t : State} (h : StateInv s) (ht : exec .mux s = .next t) : StateInv t := by
  obtain ⟨z, e, hs, rfl⟩ := exec_mux_next ht
  have hpos := h.position
  simp only [positionOk, hs] at hpos
  obtain ⟨rfl, he, hphase⟩ := hpos
  refine h.set_transients (h.claimedFirst (by simp [hs])) ⟨?_, hphase⟩
  rw [fold_eq_muxOf (h.mod_lt _), List.getD_eq_getElem?_getD, he, Option.getD_some]

theorem exec_setd {t : State} (h : StateInv s) (ht : exec .setd s = .next t) : StateInv t := by
  obtain ⟨d, hs, -, rfl⟩ := exec_setd_next ht
  have hpos := h.position
  simp only [positionOk, hs] at hpos
  obtain ⟨hd, hphase⟩ := hpos
  exact h.write_duty (h.claimedFirst (by simp [hs])) hphase hd rfl

end StateInv

/-- Every operation keeps the invariant; the five STARTUP writes may raise a start-up fault instead. -/
theorem exec_keeps_inv {i : Instr} {s t : State} (h : StateInv s) (ht : exec i s = .next t) :
    StateInv t := by
  cases i with
  | idle => exact (exec_idle_next ht).2 ▸ h
  | getmax =>
    obtain ⟨-, ⟨-, rfl⟩ | ⟨-, rfl⟩⟩ := exec_getmax_next ht
    exacts [h.record_max, h.record_fault nofun nofun]
  | build =>
    obtain ⟨-, ⟨he, rfl⟩ | ⟨-, rfl⟩⟩ := exec_build_next ht
    exacts [h.fill_tslot he, h.record_fault nofun nofun]
  | putp =>
    obtain ⟨-, ⟨he, rfl⟩ | ⟨-, rfl⟩⟩ := exec_putp_next ht
    exacts [h.fill_pslot he, h.record_fault nofun nofun]
  | enable =>
    obtain ⟨-, ⟨-, rfl⟩ | ⟨-, rfl⟩⟩ := exec_enable_next ht
    exacts [h.set_pwmEn, h.record_fault nofun nofun]
  | listen =>
    obtain ⟨-, ⟨-, rfl⟩ | ⟨-, rfl⟩⟩ := exec_listen_next ht
    exacts [h.set_uie, h.record_fault nofun nofun]
  | uev => exact exec_uev_next ht ▸ h.set_uif _
  | tick => exact h.exec_tick ht
  | claim => exact h.exec_claim ht
  | adv => exact h.exec_adv ht
  | ack => exact h.exec_ack ht
  | fold => exact h.exec_fold ht
  | quad => exact h.exec_quad ht
  | idx => exact h.exec_idx ht
  | lut => exact h.exec_lut ht
  | mux => exact h.exec_mux ht
  | setd => exact h.exec_setd ht

/-- Settles O56: a step is one operation on a state that differs in the schedule only, and every operation
keeps the invariant. -/
theorem stepKeepsInvariant : Obligations.StepKeepsInvariant := by
  unfold Obligations.StepKeepsInvariant
  intro s t h ht
  obtain ⟨-, i, u, -, hu, he⟩ := step_next ht
  exact exec_keeps_inv (hu ▸ h.set_sched u.sched) he

end Sys2Proof.Machine
end

section
/-! What the invariant says of the reset state and of the registers' ranges (R35, R38, R147), and the frame
of every operation: the column "written by" of spec/10_state.md section 1 and the one-way bits of R39. -/

namespace Sys2Proof.Machine

/-- Nothing is claimed, nothing is written and nothing is recorded at reset (R147). -/
theorem stateInv_resetWith {c : Config} (h : c.wf = true) : StateInv (State.resetWith c) where
  config := h
  tabLength := resetWith_tab_length c
  tslotTaken := by simp
  pslotTaken := by simp
  slotTable := nofun
  claimedTable := nofun
  armed := nofun
  claimedFirst := fun hne => absurd rfl hne
  writtenAfterClaim := fun hne => absurd rfl hne
  position := (Nat.zero_mod _).symm
  output := rfl
  lastDuty := nofun
  results := nofun
  faults := ⟨nofun, nofun⟩

/-- Settles O55: by `stateInv_resetWith`, and the configuration of `State.reset` is a well-formed one. -/
theorem resetSatisfiesInvariant : Obligations.ResetSatisfiesInvariant := by
  unfold Obligations.ResetSatisfiesInvariant
  have hardware_wf : Config.hardware.wf = true := by decide
  exact ⟨fun _ h => stateInv_resetWith h, stateInv_resetWith hardware_wf⟩

/-- The duties of the waveform are in range (R38). -/
theorem waveform_le_maxDuty {c : Config} (h : c.wf = true) (k : Nat) :
    ∀ d ∈ waveform c k, d ≤ c.maxDuty := by
  have hn := Config.one_le_n h
  simp only [waveform, List.mem_map, forall_exists_index, and_imp, forall_apply_eq_imp_iff₂]
  exact fun j _ => fold_le (Nat.mod_lt j (by omega)) (Config.table_le_maxDuty h)

theorem StateInv.out_le_maxDuty {s : State} (h : StateInv s) : ∀ d ∈ s.out, d ≤ s.cfg.maxDuty := by
  rw [h.output]
  exact waveform_le_maxDuty h.config _

/-- `DUTY`, once written, is the last entry of `OUT` (R115). -/
theorem StateInv.duty_mem_out {s : State} (h : StateInv s) (hne : s.out ≠ []) : s.duty ∈ s.out := by
  rw [h.lastDuty _ (List.getLast?_eq_some_getLast hne)]
  exact List.getLast_mem hne

/-- Settles O57: `PHASE` is a remainder modulo `4N`, `OUT` is a part of the waveform of a table whose entries
are at most `MAX_DUTY`, `DUTY` is its last entry and `TAB` is that table. -/
theorem invariantBoundsRegisters : Obligations.InvariantBoundsRegisters := by
  unfold Obligations.InvariantBoundsRegisters
  intro s h
  refine ⟨h.phase_lt, h.phase_lt.trans (four_mul_lt_two_pow_phaseW _), fun d hd => ?_, fun hne => ?_,
    fun hrun => ?_⟩
  · exact ⟨h.out_le_maxDuty d hd, (h.out_le_maxDuty d hd).trans_lt (Config.maxDuty_lt h.config)⟩
  · exact h.out_le_maxDuty _ (h.duty_mem_out hne)
  · rw [h.claimedTable hrun]
    exact Config.table_le_maxDuty h.config

/-- What a TICK that writes its duty leaves: the claim's writes if `RUN` was 0, the advanced phase, the
event acknowledged and the duty written (R93). -/
theorem exec_tick_next_writes {s t : State} (h : exec .tick s = .next t) :
    (∃ c, c ≠ .noFault ∧ t = faulted s c) ∨ ∃ u d, claimIfNeeded s = .ok u ∧ t = { u with
      phase := advancedPhase u.cfg.n u.phase, uif := false, duty := d, out := u.out ++ [d] } := by
  obtain ⟨-, ⟨v, d, hv, -, rfl⟩ | ⟨c, hc, rfl⟩⟩ := exec_tick_next h
  · obtain ⟨u, hu, -, -, rfl⟩ := invocation_eq_ok.mp hv
    exact .inr ⟨u, d, hu, rfl⟩
  · have hraised : c ≠ .noFault := by
      obtain ⟨rfl, -⟩ | ⟨u, -, ⟨rfl, -⟩ | ⟨rfl, -⟩⟩ := invocation_error hc <;> decide
    exact .inl ⟨c, hraised, rfl⟩

/-- Settles O53: each operation's inversion lemma lists what it writes; a fault writes `FAULT` alone. -/
theorem elementsWrittenOnlyByTheirWriters : Obligations.ElementsWrittenOnlyByTheirWriters := by
  unfold Obligations.ElementsWrittenOnlyByTheirWriters
  intro i s t h
  cases i with
  | idle =>
    obtain ⟨-, rfl⟩ := exec_idle_next h
    simp
  | getmax => obtain ⟨-, ⟨-, rfl⟩ | ⟨-, rfl⟩⟩ := exec_getmax_next h <;> simp [faulted]
  | build => obtain ⟨-, ⟨-, rfl⟩ | ⟨-, rfl⟩⟩ := exec_build_next h <;> simp [faulted]
  | putp => obtain ⟨-, ⟨-, rfl⟩ | ⟨-, rfl⟩⟩ := exec_putp_next h <;> simp [faulted]
  | enable => obtain ⟨-, ⟨-, rfl⟩ | ⟨-, rfl⟩⟩ := exec_enable_next h <;> simp [faulted]
  | listen => obtain ⟨-, ⟨-, rfl⟩ | ⟨-, rfl⟩⟩ := exec_listen_next h <;> simp [faulted]
  | uev =>
    obtain rfl := exec_uev_next h
    simp
  | tick =>
    obtain ⟨c, -, rfl⟩ | ⟨u, d, hu, rfl⟩ := exec_tick_next_writes h
    · simp [faulted]
    · obtain ⟨-, rfl⟩ | ⟨-, T, -, -, rfl⟩ := claimIfNeeded_eq_ok.mp hu <;> simp
  | claim =>
    obtain ⟨-, ⟨T, -, -, -, rfl⟩ | ⟨-, rfl⟩⟩ := exec_claim_next h <;> simp [faulted, Instr.agent]
  | adv => obtain ⟨-, ⟨-, rfl⟩ | ⟨-, rfl⟩⟩ := exec_adv_next h <;> simp [faulted, Instr.agent]
  | ack =>
    obtain ⟨i, -, rfl⟩ := exec_ack_next h
    simp [Instr.agent]
  | fold =>
    obtain ⟨i, -, ⟨d, -, rfl⟩ | ⟨-, rfl⟩⟩ := exec_fold_next h <;> simp [faulted, Instr.agent]
  | quad =>
    obtain ⟨i, -, rfl⟩ := exec_quad_next h
    simp [Instr.agent]
  | idx =>
    obtain ⟨i, sel, -, rfl⟩ := exec_idx_next h
    simp [Instr.agent]
  | lut =>
    obtain ⟨z, j, -, ⟨e, -, rfl⟩ | ⟨-, rfl⟩⟩ := exec_lut_next h <;> simp [faulted, Instr.agent]
  | mux =>
    obtain ⟨z, e, -, rfl⟩ := exec_mux_next h
    simp [Instr.agent]
  | setd =>
    obtain ⟨d, -, -, rfl⟩ := exec_setd_next h
    simp [Instr.agent]

/-- R39, over the operations: no writer of `UIE`, `PWM_EN`, `RUN` or a slot takes one of them back. -/
theorem exec_keeps_oneWayBits {i : Instr} {s t : State} (h : exec i s = .next t) :
    (s.uie = true → t.uie = true) ∧ (s.pwmEn = true → t.pwmEn = true) ∧ (s.run = true → t.run = true) ∧
      (s.tslot = .taken → t.tslot = .taken) ∧ (s.pslot = .taken → t.pslot = .taken) := by
  cases i with
  | listen => obtain ⟨-, ⟨-, rfl⟩ | ⟨-, rfl⟩⟩ := exec_listen_next h <;> simp [faulted]
  | enable => obtain ⟨-, ⟨-, rfl⟩ | ⟨-, rfl⟩⟩ := exec_enable_next h <;> simp [faulted]
  | build => obtain ⟨-, ⟨he, rfl⟩ | ⟨-, rfl⟩⟩ := exec_build_next h <;> simp [*, faulted]
  | putp => obtain ⟨-, ⟨he, rfl⟩ | ⟨-, rfl⟩⟩ := exec_putp_next h <;> simp [*, faulted]
  | claim => obtain ⟨-, ⟨T, -, -, -, rfl⟩ | ⟨-, rfl⟩⟩ := exec_claim_next h <;> simp [faulted]
  | tick =>
    obtain ⟨c, -, rfl⟩ | ⟨u, d, hu, rfl⟩ := exec_tick_next_writes h
    · simp [faulted]
    · obtain ⟨-, rfl⟩ | ⟨-, T, -, -, rfl⟩ := claimIfNeeded_eq_ok.mp hu <;> simp
  | idle | getmax | uev | adv | ack | fold | quad | idx | lut | mux | setd =>
    obtain ⟨-, hrun, -, htslot, hpslot, -, huie, hpwmEn, -⟩ :=
      elementsWrittenOnlyByTheirWriters _ _ _ h
    simp only [reduceCtorEq, or_self, imp_false, not_not] at hrun htslot hpslot huie hpwmEn
    simp [*]

/-- Settles O52: a step is one operation on a state that differs in the schedule only, and an operation with
a next state was enabled, so `FAULT` was 0. -/
theorem oneWayBitsStay : Obligations.OneWayBitsStay := by
  unfold Obligations.OneWayBitsStay
  intro s t h
  obtain ⟨-, i, u, -, hu, he⟩ := step_next h
  obtain ⟨huie, hpwmEn, hrun, htslot, hpslot⟩ := exec_keeps_oneWayBits he
  have hfault := exec_next_noFault he
  rw [hu] at huie hpwmEn hrun htslot hpslot hfault
  exact ⟨huie, hpwmEn, hrun, htslot, hpslot, hfault⟩

/-! ### Runs from reset -/

/-- Once a fault is recorded a run goes no further, so a run without one had none on the way (R126). -/
theorem execAll_cons_noFault {i : Instr} {l : List Instr} {s t : State}
    (h : execAll (i :: l) s = .next t) (ht : t.fault = .noFault) :
    ∃ u, exec i s = .next u ∧ u.fault = .noFault ∧ execAll l u = .next t := by
  simp only [execAll] at h
  split at h
  · next u hu =>
    refine ⟨u, hu, ?_, h⟩
    cases l with
    | nil => exact Host.Outcome.next.inj h ▸ ht
    | cons j l =>
      simp only [execAll] at h
      split at h
      · next hv => exact exec_next_noFault hv
      all_goals exact nomatch h
  all_goals exact nomatch h

/-- A schedulable operation leaves no invocation in progress. -/
theorem stage_of_schedulable {i : Instr} {s t : State} (hi : i.schedulable = true)
    (h : exec i s = .next t) : t.stage = s.stage := by
  obtain ⟨-, -, -, -, -, -, -, -, -, -, -, hstage, -⟩ := elementsWrittenOnlyByTheirWriters _ _ _ h
  by_contra hne
  obtain ⟨hagent, htick⟩ := hstage hne
  cases i <;> simp_all [Instr.schedulable, Instr.agent]

/-- Of the schedulable operations TICK alone writes a duty, and one (R93). -/
theorem out_length_of_schedulable {i : Instr} {s t : State} (hi : i.schedulable = true)
    (h : exec i s = .next t) (ht : t.fault = .noFault) :
    t.out.length = s.out.length + if i = .tick then 1 else 0 := by
  by_cases htick : i = .tick
  · subst htick
    obtain ⟨c, hc, rfl⟩ | ⟨u, d, hu, rfl⟩ := exec_tick_next_writes h
    · exact absurd ht hc
    · obtain ⟨-, rfl⟩ | ⟨-, T, -, -, rfl⟩ := claimIfNeeded_eq_ok.mp hu <;> simp
  · obtain ⟨-, -, -, -, -, -, -, -, -, hout, -⟩ := elementsWrittenOnlyByTheirWriters _ _ _ h
    have hsetd : i ≠ .setd := by rintro rfl; exact nomatch hi
    have hsame : t.out = s.out := by
      by_contra hne
      exact (hout hne).1.elim hsetd htick
    simp [hsame, htick]

/-- A run of schedulable operations without a fault keeps the invariant and the configuration, leaves no
invocation in progress and writes one duty for each TICK (R40). -/
theorem execAll_schedulable {l : List Instr} {s t : State} (hl : l.all Instr.schedulable = true)
    (hs : StateInv s) (h : execAll l s = .next t) (ht : t.fault = .noFault) :
    StateInv t ∧ t.cfg = s.cfg ∧ t.stage = s.stage ∧
      t.out.length = s.out.length + l.count .tick := by
  induction l generalizing s with
  | nil =>
    obtain rfl := Host.Outcome.next.inj h
    exact ⟨hs, rfl, rfl, rfl⟩
  | cons i l ih =>
    rw [List.all_cons, Bool.and_eq_true] at hl
    obtain ⟨u, hu, huf, hrest⟩ := execAll_cons_noFault h ht
    obtain ⟨hinv, hcfg, hstage, hlen⟩ := ih hl.2 (exec_keeps_inv hs hu) hrest
    obtain ⟨-, -, -, -, -, -, -, -, -, -, -, -, hcfg', -⟩ := elementsWrittenOnlyByTheirWriters _ _ _ hu
    refine ⟨hinv, hcfg.trans hcfg', hstage.trans (stage_of_schedulable hl.1 hu), ?_⟩
    rw [hlen, out_length_of_schedulable hl.1 hu huf, List.count_cons, Nat.add_assoc, Nat.add_comm (ite _ _ _)]
    simp only [beq_iff_eq]

/-- Settles O58: the run ends in a state of the invariant outside an invocation, with as many duties as
TICKs; the invariant says what `PHASE` and `OUT` are there. -/
theorem outputIsWaveformOfTicks : Obligations.OutputIsWaveformOfTicks := by
  unfold Obligations.OutputIsWaveformOfTicks
  intro c l t hc hl h ht
  obtain ⟨hinv, hcfg, hstage, hlen⟩ := execAll_schedulable hl (stateInv_resetWith hc) h ht
  have hphase := hinv.phase_eq (.inl hstage)
  have hout := hinv.output
  rw [resetWith_out, List.length_nil, Nat.zero_add] at hlen
  rw [hcfg, hlen] at hphase hout
  exact ⟨hphase, hout⟩

end Sys2Proof.Machine
end

section
/-! Noninterference (R21, R26, R27, R148): a change of `PWM_EN`, of `DUTY`, or of `TAB` before the claim goes
through every operation and shows in nothing else. -/

namespace Sys2Proof.Machine

/-- `PWM_EN`, `DUTY` and, while `RUN = 0`, `TAB` changed by `f`, `g` and `k`. -/
def retouch (f : Bool → Bool) (g : Duty → Duty) (k : QuarterTable → QuarterTable) (s : State) : State :=
  { s with pwmEn := f s.pwmEn, duty := g s.duty, tab := if s.run then s.tab else k s.tab }

theorem retouch_pwmEn (b : Bool) :
    retouch (fun _ => b) id id = fun s => { s with pwmEn := b } := by
  funext s
  simp [retouch]

theorem retouch_duty (d : Duty) : retouch id (fun _ => d) id = fun s => { s with duty := d } := by
  funext s
  simp [retouch]

theorem retouch_tab (T : QuarterTable) :
    retouch id id (fun _ => T) = fun s => if s.run then s else { s with tab := T } := by
  funext s
  simp only [retouch, id]
  split_ifs <;> rfl

section

variable {f f' : Bool → Bool} {g g' : Duty → Duty} {k k' : QuarterTable → QuarterTable} {s : State}

/-! ### What the parts of an operation answer from a changed state -/

@[simp] theorem retouch_stage : (retouch f g k s).stage = s.stage := rfl

theorem claimSlots_retouch : claimSlots (retouch f g k s) = (claimSlots s).map (retouch f g k) := by
  cases hp : s.pslot <;> cases ht : s.tslot <;> simp [claimSlots, retouch, hp, ht, Except.map]

theorem claimIfNeeded_retouch :
    claimIfNeeded (retouch f g k s) = (claimIfNeeded s).map (retouch f g k) := by
  cases hr : s.run
  · simpa [claimIfNeeded, hr, retouch] using claimSlots_retouch (s := s)
  · simp [claimIfNeeded, hr, retouch, Except.map]

theorem retouch_tab_of_run (hr : s.run = true) : (retouch f g k s).tab = s.tab := by
  simp [retouch, hr]

theorem advance_retouch :
    advance (retouch f g k s) = (advance s).map fun r => (r.1, retouch f g k r.2) := by
  by_cases hp : 4 * s.cfg.n ≤ s.phase <;> simp [advance, retouch, hp, Except.map]

theorem acknowledge_retouch : acknowledge (retouch f g k s) = retouch f g k (acknowledge s) := rfl

theorem foldStaged_retouch (htab : (retouch f g k s).tab = s.tab) (i : Nat) :
    foldStaged (retouch f g k s) i = foldStaged s i :=
  foldStaged_congr (s := s) (t := retouch f g k s) rfl htab i

/-- An invocation reads `TAB` after the claim, so it answers the same duty. -/
theorem invocation_retouch :
    invocation (retouch f g k s) = (invocation s).map fun r => (retouch f g k r.1, r.2) := by
  unfold invocation
  rw [claimIfNeeded_retouch]
  cases hc : claimIfNeeded s with
  | error c => rfl
  | ok u =>
    have hrun : u.run = true := by
      obtain ⟨hr, rfl⟩ | ⟨-, T, -, -, rfl⟩ := claimIfNeeded_eq_ok.mp hc
      exacts [hr, rfl]
    simp only [Except.map, advance_retouch]
    cases ha : advance u with
    | error c => rfl
    | ok r =>
      obtain ⟨i, v⟩ := r
      obtain ⟨-, -, hv⟩ := advance_eq_ok.mp ha
      have hrunv : (acknowledge v).run = true := by rw [acknowledge_run, hv, hrun]
      simp only [acknowledge_retouch, foldStaged_retouch (retouch_tab_of_run hrunv)]
      cases foldStaged (acknowledge v) i <;> rfl

/-! ### The outcomes, up to a second change that covers the first -/

/-- Two answers that differ at most in what `f'`, `g'` and `k'` cover. -/
def Alike (f' : Bool → Bool) (g' : Duty → Duty) (k' : QuarterTable → QuarterTable) (r r' : Result) : Prop :=
  mapState (retouch f' g' k') r = mapState (retouch f' g' k') r'

theorem alike_next {t t' : State} (h : retouch f' g' k' t = retouch f' g' k' t') :
    Alike f' g' k' (.next t) (.next t') :=
  congrArg Host.Outcome.next h

/-- The guard reads `FAULT` and the condition. -/
theorem alike_guarded {i : Instr} {en : Bool} {s' : State} {r r' : Result} (hfault : s'.fault = s.fault)
    (h : Alike f' g' k' r' r) : Alike f' g' k' (guarded i en s' r') (guarded i en s r) := by
  unfold guarded
  rw [hfault]
  split_ifs
  exacts [h, rfl, rfl]

variable (hf : ∀ b, f' (f b) = f' b) (hg : ∀ d, g' (g d) = g' d) (hk : ∀ T, k' (k T) = k' T)
include hf hg hk

theorem retouch_retouch : retouch f' g' k' (retouch f g k s) = retouch f' g' k' s := by
  cases hr : s.run <;> simp [retouch, hf, hg, hk, hr]

theorem alike_raise (c : FaultCode) :
    Alike f' g' k' (raise c (retouch f g k s)) (raise c s) := by
  refine alike_next ?_
  show retouch f' g' k' (if s.fault = .noFault then retouch f g k { s with fault := c } else _) = _
  split_ifs <;> exact retouch_retouch hf hg hk

theorem alike_settle {x x' : Except FaultCode State}
    (h : x'.map (retouch f' g' k') = x.map (retouch f' g' k')) :
    Alike f' g' k' (settle (retouch f g k s) x') (settle s x) := by
  cases x <;> cases x' <;> simp only [Except.map, reduceCtorEq, Except.ok.injEq, Except.error.injEq] at h
  · exact h ▸ alike_raise hf hg hk _
  · exact alike_next h

/-- A STARTUP operation that writes nothing of what was changed, or writes over it. -/
theorem alike_startupOp {i : Instr} {x x' : Except FaultCode State}
    (h : x'.map (retouch f' g' k') = x.map (retouch f' g' k')) :
    Alike f' g' k' (startupOp i (retouch f g k s) x') (startupOp i s x) :=
  alike_guarded rfl (alike_settle hf hg hk h)

theorem alike_owned {i : Instr} {t t' : State} (h : retouch f' g' k' t' = retouch f' g' k' t) :
    Alike f' g' k' (startupOp i (retouch f g k s) (owned (retouch f g k s) t'))
      (startupOp i s (owned s t)) := by
  refine alike_startupOp hf hg hk ?_
  show (if s.run = true then _ else Except.ok t').map _ = _
  unfold owned
  split_ifs
  exacts [rfl, congrArg Except.ok h]

omit hg in
/-- The duty write covers the change of `DUTY`. -/
theorem alike_setDuty (d : Duty) :
    Alike f' g' k' (setDuty d (retouch f g k s)) (setDuty d s) := by
  show Alike f' g' k' (if d ≤ s.cfg.maxDuty then _ else _) _
  unfold setDuty
  split_ifs
  · exact alike_next (retouch_retouch hf (g := id) (fun _ => rfl) hk
      (s := { s with duty := d, out := s.out ++ [d] }))
  · rfl

/-- Every operation answers alike from a changed state, if no invocation in progress sees the change of
`TAB`. -/
theorem exec_retouch_alike (htab : s.stage ≠ .idle → (retouch f g k s).tab = s.tab) (i : Instr) :
    Alike f' g' k' (exec i (retouch f g k s)) (exec i s) := by
  have hrr : ∀ u : State, retouch f' g' k' (retouch f g k u) = retouch f' g' k' u :=
    fun u => retouch_retouch hf hg hk
  have hdisabled : ∀ i, Alike f' g' k' (guarded i false (retouch f g k s) (.next (retouch f g k s)))
      (guarded i false s (.next s)) := fun i => alike_guarded rfl (alike_next (hrr s))
  cases i with
  | idle => exact alike_startupOp hf hg hk (congrArg Except.ok (hrr s))
  | getmax => exact alike_owned hf hg hk (hrr { s with got := s.got ++ [s.cfg.maxDuty] })
  | build =>
    refine alike_startupOp hf hg hk ?_
    show ((slotPut s.tslot s.cfg.table).map _).map _ = _
    cases slotPut s.tslot s.cfg.table with
    | error c => rfl
    | ok S => exact congrArg Except.ok (hrr { s with tslot := S })
  | putp =>
    refine alike_startupOp hf hg hk ?_
    show ((slotPut s.pslot _).map _).map _ = _
    cases slotPut s.pslot PwmHandle.mk with
    | error c => rfl
    | ok S => exact congrArg Except.ok (hrr { s with pslot := S })
  | enable =>
    exact alike_owned hf hg hk (retouch_retouch (f := id) (fun _ => rfl) hg hk
      (s := { s with pwmEn := true }))
  | listen => exact alike_owned hf hg hk (hrr { s with uie := true })
  | uev => exact alike_guarded rfl (alike_next (hrr { s with uif := uifAfterEvent s }))
  | tick =>
    refine alike_guarded rfl ?_
    rw [invocation_retouch]
    cases invocation s with
    | error c => exact alike_raise hf hg hk c
    | ok r => exact alike_setDuty hf hk r.2
  | claim =>
    refine alike_guarded rfl (alike_settle hf hg hk ?_)
    rw [claimSlots_retouch]
    cases claimSlots s with
    | error c => rfl
    | ok t => exact congrArg Except.ok (hrr { t with stage := .claimed })
  | adv =>
    refine alike_guarded rfl (alike_settle hf hg hk ?_)
    rw [advance_retouch]
    cases advance s with
    | error c => rfl
    | ok r => exact congrArg Except.ok (hrr { r.2 with stage := .advanced r.1 })
  | ack =>
    simp only [exec, execAck, retouch_stage]
    split
    · next i _ => exact alike_guarded rfl (alike_next (hrr { acknowledge s with stage := .acked i }))
    · exact hdisabled .ack
  | fold =>
    simp only [exec, execFold, retouch_stage]
    split
    · next i hs =>
      refine alike_guarded rfl (alike_settle hf hg hk ?_)
      rw [foldStaged_retouch (htab (by simp [hs]))]
      cases foldStaged s i with
      | error c => rfl
      | ok d => exact congrArg Except.ok (hrr { s with stage := .folded d })
    · exact hdisabled .fold
  | quad =>
    simp only [exec, execQuad, retouch_stage]
    split
    · next i _ =>
      exact alike_guarded rfl (alike_next (hrr { s with stage := .decoded i (selectOf s.cfg.n i) }))
    · exact hdisabled .quad
  | idx =>
    simp only [exec, execIdx, retouch_stage]
    split
    · next i sel _ =>
      exact alike_guarded rfl
        (alike_next (hrr { s with stage := .indexed sel.zero (indexOf s.cfg.n i sel.quad) }))
    · exact hdisabled .idx
  | lut =>
    simp only [exec, execLut, retouch_stage]
    split
    · next z j hs =>
      refine alike_guarded rfl (alike_settle hf hg hk ?_)
      rw [tabRead_congr (s := s) (t := retouch f g k s) rfl (htab (by simp [hs]))]
      cases tabRead s j with
      | error c => rfl
      | ok e => exact congrArg Except.ok (hrr { s with stage := .looked z e })
    · exact hdisabled .lut
  | mux =>
    simp only [exec, execMux, retouch_stage]
    split
    · next z e _ => exact alike_guarded rfl (alike_next (hrr { s with stage := .folded (muxOf z e) }))
    · exact hdisabled .mux
  | setd =>
    simp only [exec, execSetd, retouch_stage]
    split
    · next d _ => exact alike_guarded rfl (alike_setDuty hf hk (s := { s with stage := .idle }) d)
    · exact hdisabled .setd

end

/-- Settles O54: setting one of the three elements is a `retouch`, and so is setting it to the fixed value
the outcomes are compared at. -/
theorem unreadElementsDoNotMatter : Obligations.UnreadElementsDoNotMatter := by
  unfold Obligations.UnreadElementsDoNotMatter
  intro i s
  refine ⟨fun b => ?_, fun d => ?_, fun T hrun hidle => ?_⟩
  · have h := exec_retouch_alike (f := fun _ => b) (f' := fun _ => false) (g := id) (g' := id) (k := id)
      (k' := id) (s := s) (fun _ => rfl) (fun _ => rfl) (fun _ => rfl) (fun _ => by simp [retouch]) i
    rwa [Alike, retouch_pwmEn, retouch_pwmEn] at h
  · have h := exec_retouch_alike (f := id) (f' := id) (g := fun _ => d) (g' := fun _ => 0) (k := id)
      (k' := id) (s := s) (fun _ => rfl) (fun _ => rfl) (fun _ => rfl) (fun _ => by simp [retouch]) i
    rwa [Alike, retouch_duty, retouch_duty] at h
  · have h := exec_retouch_alike (f := id) (f' := id) (g := id) (g' := id) (k := fun _ => T)
      (k' := fun _ => []) (s := s) (fun _ => rfl) (fun _ => rfl) (fun _ => rfl) (absurd hidle) i
    rw [Alike, retouch_tab, retouch_tab] at h
    simpa only [hrun, Bool.false_eq_true, if_false] using h

end Sys2Proof.Machine
end

section
/-! The step of the machine case by case (R50, R68, R79): what `nextOperation` and `unscheduledOp` answer, and
what `step` makes of it. -/

namespace Sys2Proof.Machine

section
variable {s : State}

/-- A reserved word on the schedule is answered in place of an operation (R68). -/
theorem nextOperation_cons_reserved {w : OpWord} {rest : List OpWord} (h : s.sched = w :: rest)
    (hd : decode w = none) : nextOperation s = .error w := by
  simp [nextOperation, h, hd]

/-- Inside an invocation its next sub-operation is chosen (R139). -/
theorem unscheduledOp_of_nextSubOperation {i : Instr} (h : nextSubOperation s.stage = some i) :
    unscheduledOp s = i := by
  simp [unscheduledOp, h]

/-- Outside an invocation an armed pending event chooses TICK (R18), anything else IDLE (R88). -/
theorem unscheduledOp_of_idle (h : s.stage = .idle) :
    unscheduledOp s = if s.uif = true ∧ s.uie = true then .tick else .idle := by
  simp [unscheduledOp, nextSubOperation, tickEnabled_iff, h]

theorem step_of_operation {i : Instr} {t : State} (hw : s.cfg.wf = true)
    (h : nextOperation s = .ok (i, t)) : step s = exec i t := by
  simp [step, hw, h]

theorem step_of_reserved {w : OpWord} (hw : s.cfg.wf = true) (h : nextOperation s = .error w) :
    step s = .refused (.reservedWord w) := by
  simp [step, hw, h]

theorem step_of_badConfig (hw : s.cfg.wf = false) : step s = .refused .badConfig := by
  simp [step, hw]

end

/-- Settles O5: each clause is one answer of `nextOperation`; with an empty schedule the operation follows
from the stage, and only outside an invocation from the event's two flags. -/
theorem stepRunsScheduledOperation : Obligations.StepRunsScheduledOperation := by
  unfold Obligations.StepRunsScheduledOperation
  intro s
  refine ⟨fun w rest i hw hs hd => step_of_operation hw (nextOperation_cons s w rest i hs hd),
    fun w rest hw hs hd => step_of_reserved hw (nextOperation_cons_reserved hs hd),
    fun hw hs => ?_, step_of_badConfig⟩
  rw [step_of_operation hw (nextOperation_nil s hs)]
  congr 1
  cases hst : s.stage with
  | idle => exact unscheduledOp_of_idle hst
  | claimed | advanced | acked | decoded | indexed | looked | folded =>
    exact unscheduledOp_of_nextSubOperation (by rw [hst]; rfl)

end Sys2Proof.Machine
end

section
/-! The primitives on the table and the slots (R42, R43, R44). -/

namespace Sys2Proof.Machine

/-- An index above `N` faults whatever `TAB` holds (R42). -/
theorem tabRead_of_gt {s : State} {j : Nat} (h : s.cfg.n < j) : tabRead s j = .error .indexRange := by
  simp [tabRead, Nat.not_le.mpr h]

/-- Settles O9: an index up to `N` lies inside a `TAB` of `N + 1` entries, so the read finds an entry. -/
theorem tabReadReturnsEntry : Obligations.TabReadReturnsEntry := by
  unfold Obligations.TabReadReturnsEntry
  intro s j hlen
  refine ⟨fun _ hj => ?_, tabRead_of_gt⟩
  have hlt : j < s.tab.length := by omega
  exact ⟨hlt, tabRead_eq_ok.mpr ⟨hj, List.getElem?_eq_getElem hlt⟩⟩

section
variable {α : Type} {S S' : Slot α} {v : α}

theorem slotPut_of_ne_empty0 (h : S ≠ .empty0) : slotPut S v = .error .slotRewrite := by
  cases S with
  | empty0 => exact absurd rfl h
  | full u => exact slotPut_full u v
  | taken => exact slotPut_taken v

theorem slotTake_of_not_full (h : ∀ u, S ≠ .full u) : slotTake S = .error .slotEmpty := by
  cases S with
  | empty0 => exact slotTake_empty0
  | full u => exact absurd rfl (h u)
  | taken => exact slotTake_taken

/-- A take answers the payload of a full slot and leaves the slot TAKEN (R44). -/
theorem slotTake_eq_ok : slotTake S = .ok (v, S') ↔ S = .full v ∧ S' = .taken := by
  cases S <;> simp [eq_comm]

end

/-- Settles O10: the slot's three states decide both operations, and a take that succeeds leaves TAKEN, in
which both raise. -/
theorem slotsArePutAndTakenOnce : Obligations.SlotsArePutAndTakenOnce := by
  unfold Obligations.SlotsArePutAndTakenOnce
  intro α S v
  refine ⟨?put, slotPut_of_ne_empty0, fun hS => slotTake_eq_ok.mpr ⟨hS, rfl⟩, slotTake_of_not_full,
    fun S' htake => ?after⟩
  case put =>
    rintro rfl
    exact slotPut_empty0 v
  case after =>
    obtain ⟨-, rfl⟩ := slotTake_eq_ok.mp htake
    exact ⟨slotTake_taken, slotPut_taken v⟩

end Sys2Proof.Machine
end

section
/-! Operation words (R64, R65, R68, R70) and program texts (R71, R72): `encode` and `decode` are inverse to
each other, and so are a list of operations and the words it assembles to. -/

namespace Sys2Proof

@[simp] theorem decode_encode (i : Instr) : decode (encode i) = some i := by
  cases i <;> rfl

/-- No word but its encoding decodes to an operation: checked on the thirty-two words. -/
theorem encode_of_decode {w : OpWord} {i : Instr} (h : decode w = some i) : encode i = w := by
  have on_every_word : ∀ w : OpWord, ∀ i ∈ decode w, encode i = w := by decide
  exact on_every_word w i h

/-- The gaps of the table of R64 are the reserved operation numbers of R68. -/
theorem reserved_iff_decode_eq_none (w : OpWord) :
    (0b01000 ≤ w.toNat ∧ w.toNat ≤ 0b01111 ∨ 0b11001 ≤ w.toNat) ↔ decode w = none := by
  revert w
  decide

theorem schedulable_iff_encode_bit (i : Instr) :
    i.schedulable = true ↔ (encode i).getLsbD 4 = false := by
  cases i <;> decide

/-- Settles O1: each number of the table is the word `encode` gives, which decodes to its operation. -/
theorem tableWordsDecode : Obligations.TableWordsDecode := by
  unfold Obligations.TableWordsDecode
  exact ⟨⟨decode_encode .idle, rfl⟩, ⟨decode_encode .getmax, rfl⟩, ⟨decode_encode .build, rfl⟩,
    ⟨decode_encode .putp, rfl⟩, ⟨decode_encode .enable, rfl⟩, ⟨decode_encode .listen, rfl⟩,
    ⟨decode_encode .uev, rfl⟩, ⟨decode_encode .tick, rfl⟩, ⟨decode_encode .claim, rfl⟩,
    ⟨decode_encode .adv, rfl⟩, ⟨decode_encode .ack, rfl⟩, ⟨decode_encode .fold, rfl⟩,
    ⟨decode_encode .quad, rfl⟩, ⟨decode_encode .idx, rfl⟩, ⟨decode_encode .lut, rfl⟩,
    ⟨decode_encode .mux, rfl⟩, ⟨decode_encode .setd, rfl⟩, schedulable_iff_encode_bit⟩

/-- The word read from a number of the table has that number's value. -/
theorem toNat_of_opWordOfNat {nbits w : Nat} {v : OpWord} (h : opWordOfNat nbits w = some v) :
    v.toNat = w % 2 ^ nbits := by
  obtain ⟨hlt, hv⟩ := Option.ite_none_right_eq_some.mp h
  obtain rfl := Option.some.inj hv
  exact (BitVec.toNat_ofNat _ _).trans (Nat.mod_eq_of_lt hlt)

/-- In at least five bits an operation word is read back as it stands (R70). -/
theorem opWordOfNat_toNat {nbits : Nat} (hn : 5 ≤ nbits) (v : OpWord) :
    opWordOfNat nbits v.toNat = some v := by
  have hmod : v.toNat % 2 ^ nbits = v.toNat :=
    Nat.mod_eq_of_lt (v.isLt.trans_le (Nat.pow_le_pow_right (by decide) hn))
  simp only [opWordOfNat, hmod, v.isLt, if_true, BitVec.ofNat_toNat, BitVec.setWidth_eq]

theorem toNat_encode_of_decodeTableWord {nbits w : Nat} {i : Instr} (h : decodeTableWord nbits w = some i) :
    (encode i).toNat = w % 2 ^ nbits := by
  obtain ⟨v, hv, hi⟩ := Option.bind_eq_some_iff.mp h
  rw [encode_of_decode hi, toNat_of_opWordOfNat hv]

/-- Settles O3: the two round trips, the second carried over to the numbers of the table. -/
theorem decodeEncodeAgree : Obligations.DecodeEncodeAgree := by
  unfold Obligations.DecodeEncodeAgree
  refine ⟨decode_encode, fun _ _ => encode_of_decode, fun nbits w => ?_⟩
  cases h : decodeTableWord nbits w with
  | none => exact .inl rfl
  | some i => exact .inr ⟨i, rfl, toNat_encode_of_decodeTableWord h⟩

theorem decodeAll_cons_eq_some {w : OpWord} {ws : List OpWord} {l : List Instr} :
    decodeAll (w :: ws) = some l ↔ ∃ i t, decode w = some i ∧ decodeAll ws = some t ∧ i :: t = l := by
  cases hw : decode w <;> cases hws : decodeAll ws <;> simp [decodeAll, hw, hws]

/-- A list of words decodes to exactly the run it is the encoding of. -/
theorem decodeAll_eq_some_iff {ws : List OpWord} {l : List Instr} :
    decodeAll ws = some l ↔ l.map encode = ws := by
  constructor
  · intro h
    induction ws generalizing l with
    | nil =>
      obtain rfl := Option.some.inj h
      rfl
    | cons w ws ih =>
      obtain ⟨i, t, hi, ht, rfl⟩ := decodeAll_cons_eq_some.mp h
      rw [List.map_cons, encode_of_decode hi, ih ht]
  · rintro rfl
    induction l with
    | nil => rfl
    | cons i l ih => exact decodeAll_cons_eq_some.mpr ⟨i, l, decode_encode i, ih, rfl⟩

theorem eventsExpansion_eq_flatten (k : Nat) :
    eventsExpansion k = (List.replicate k [Instr.uev, .tick]).flatten := by
  induction k with
  | zero => rfl
  | succ k ih => simp [eventsExpansion, ih, List.replicate_succ]

/-- Settles O4: a text assembles to the encoding of its expansions, so `decodeAll_eq_some_iff` gives the run
back and no other words for it; the expansion of EVENTS is by induction on its count. -/
theorem assembledTextDecodesToItsRun : Obligations.AssembledTextDecodesToItsRun := by
  unfold Obligations.AssembledTextDecodesToItsRun
  have decodes (p : List Line) : decodeAll (assemble p) = some (p.flatMap Line.expand) :=
    decodeAll_eq_some_iff.mpr rfl
  refine ⟨decodes, fun _ _ => decodeAll_eq_some_iff.mp, fun k => ?_⟩
  rw [decodes, List.flatMap_singleton, Line.expand, eventsExpansion_eq_flatten]

end Sys2Proof
end

section
/-! The formats S, H and F (R59, R62): QUAD's select code over the phase values, and the reserved codes. -/

namespace Sys2Proof.Machine

/-- `quad` is `floor(i / N)` (R107). -/
theorem quadOf_val {n i : Nat} (h : i < 4 * n) : (quadOf n i).val = i / n := by
  unfold quadOf
  split_ifs
  all_goals
    refine (Nat.div_eq_of_lt_le ?_ ?_).symm
    all_goals simp <;> omega

theorem quadOf_eq_iff {n i : Nat} (h : i < 4 * n) (q : Fin 4) :
    quadOf n i = q ↔ q * n ≤ i ∧ i < (q + 1) * n := by
  have hn : 0 < n := by omega
  rw [Fin.ext_iff, quadOf_val h, Nat.div_eq_iff hn, Nat.add_one_mul]
  omega

theorem selectCode_injective : Function.Injective selectCode := by
  have on_every_code : ∀ (z z' : Bool) (q q' : Fin 4),
      selectCode ⟨z, q⟩ = selectCode ⟨z', q'⟩ → z = z' ∧ q = q' := by decide
  rintro ⟨z, q⟩ ⟨z', q'⟩ h
  rw [Select.mk.injEq]
  exact on_every_code z z' q q' h

/-- Which phase values QUAD gives a select code: those of its quadrant, split by the two zeros (R66). -/
theorem selectCode_selectOf_eq_iff {n i : Nat} (h : i < 4 * n) (z : Bool) (q : Fin 4) :
    selectCode (selectOf n i) = selectCode ⟨z, q⟩ ↔
      (decide (i = 0 ∨ i = 2 * n) = z) ∧ q * n ≤ i ∧ i < (q + 1) * n := by
  rw [selectCode_injective.eq_iff, selectOf, Select.mk.injEq, quadOf_eq_iff h, zeroOf]

/-- Settles O37: each code of the table is a zero bit and a quadrant, whose ranges are those of R66. -/
theorem selectCodeByRange : Obligations.SelectCodeByRange := by
  unfold Obligations.SelectCodeByRange
  intro n i hn hi
  refine ⟨(selectCode_selectOf_eq_iff hi true 0).trans ?_, (selectCode_selectOf_eq_iff hi false 0).trans ?_,
    (selectCode_selectOf_eq_iff hi false 1).trans ?_, (selectCode_selectOf_eq_iff hi true 2).trans ?_,
    (selectCode_selectOf_eq_iff hi false 2).trans ?_, (selectCode_selectOf_eq_iff hi false 3).trans ?_,
    quadOf_val hi⟩
  all_goals
    simp
    omega

/-- A select code that has `zero` in the quadrants 0 and 2 only is read back (R59). -/
theorem selectOfCode_selectCode {sel : Select} (h : sel.zero = true → sel.quad = 0 ∨ sel.quad = 2) :
    selectOfCode (selectCode sel) = some sel := by
  have on_every_code : ∀ (z : Bool) (q : Fin 4), (z = true → q = 0 ∨ q = 2) →
      selectOfCode (selectCode ⟨z, q⟩) = some ⟨z, q⟩ := by decide
  exact on_every_code sel.zero sel.quad h

/-- The zeros of the waveform start the quadrants 0 and 2 (R107). -/
theorem quadOf_of_zeroOf {n i : Nat} (hn : 0 < n) (h : zeroOf n i = true) :
    quadOf n i = 0 ∨ quadOf n i = 2 := by
  obtain rfl | rfl := of_decide_eq_true h
  · exact .inl ((quadOf_eq_iff (by omega) 0).mpr (by simp; omega))
  · exact .inr ((quadOf_eq_iff (by omega) 2).mpr (by simp; omega))

theorem reserved_iff_selectOfCode_eq_none (w : BitVec 3) :
    (w = 0b101#3 ∨ w = 0b111#3) ↔ selectOfCode w = none := by
  revert w
  decide

theorem reserved_iff_slotOfStatus_eq_none (w : BitVec 2) :
    w = 0b11#2 ↔ slotOfStatus PwmHandle.mk w = none := by
  revert w
  decide

theorem slotOfStatus_slotStatus (S : Slot PwmHandle) :
    slotOfStatus PwmHandle.mk (slotStatus S) = some S := by
  cases S <;> rfl

theorem reserved_iff_faultOfCode_eq_none (w : BitVec 3) :
    (w = 6#3 ∨ w = 7#3) ↔ faultOfCode w = none := by
  revert w
  decide

theorem faultOfCode_faultCode (c : FaultCode) : faultOfCode (faultCode c) = some c := by
  cases c <;> rfl

/-- Settles O2: each reader refuses exactly its reserved codes, and reads every produced code back; the only
one of these that needs the model's arithmetic is QUAD's. -/
theorem reservedWordsRefused : Obligations.ReservedWordsRefused := by
  unfold Obligations.ReservedWordsRefused
  refine ⟨reserved_iff_decode_eq_none, fun i => ?operation, reserved_iff_selectOfCode_eq_none,
    fun n i => ?select, reserved_iff_slotOfStatus_eq_none, slotOfStatus_slotStatus,
    fun _ => ⟨rfl, rfl, rfl⟩, reserved_iff_faultOfCode_eq_none, faultOfCode_faultCode,
    rfl, rfl, rfl, rfl, rfl, rfl⟩
  case operation => simp
  case select => exact selectOfCode_selectCode (quadOf_of_zeroOf n.succ_pos)

end Sys2Proof.Machine
end

section
/-! Where an operation is enabled (R65, R81, R93, R94, R104, R140), and the placing of a word (log 3). -/

namespace Sys2Proof.Machine

/-- The condition of each operation beside `FAULT = 0`: STARTUP's stand outside an invocation, a
sub-operation where its predecessor has handed it its operands. -/
def Enabled : Instr → State → Prop
  | .idle, s | .getmax, s | .build, s | .putp, s | .enable, s | .listen, s => s.stage = .idle
  | .uev, _ => True
  | .tick, s => tickEnabled s = true
  | .claim, s => tickEnabled s = true ∧ (s.run && bothFull s) = false
  | .adv, s => advEnabled s = true
  | .ack, s => ∃ i, s.stage = .advanced i
  | .fold, s | .quad, s => ∃ i, s.stage = .acked i
  | .idx, s => ∃ i sel, s.stage = .decoded i sel
  | .lut, s => ∃ z j, s.stage = .indexed z j
  | .mux, s => ∃ z e, s.stage = .looked z e
  | .setd, s => ∃ d, s.stage = .folded d

section
variable {i : Instr} {s : State}

/-- An operation whose effect refuses nothing as not enabled is refused so by its guard alone. -/
theorem guarded_eq_notEnabled_iff {en : Bool} {e : Result} (he : e ≠ .refused (.notEnabled i)) :
    guarded i en s e = .refused (.notEnabled i) ↔ s.fault = .noFault ∧ en = false := by
  by_cases hf : s.fault = .noFault <;> cases en <;> simp [guarded, hf, he]

@[simp] theorem raise_ne_refused (c : FaultCode) (r : Refusal) : raise c s ≠ .refused r := nofun

@[simp] theorem settle_ne_refused (e : Except FaultCode State) (r : Refusal) : settle s e ≠ .refused r := by
  cases e <;> simp

@[simp] theorem setDuty_ne_notEnabled (d : Duty) : setDuty d s ≠ .refused (.notEnabled i) := by
  by_cases h : d ≤ s.cfg.maxDuty <;> simp [setDuty, h]

theorem startupOp_eq_notEnabled_iff {e : Except FaultCode State} :
    startupOp i s e = .refused (.notEnabled i) ↔ s.fault = .noFault ∧ ¬ s.stage = .idle :=
  (guarded_eq_notEnabled_iff (settle_ne_refused e _)).trans (by rw [decide_eq_false_iff_not])

/-- An operation is refused as not enabled exactly where its condition fails with no fault recorded. -/
theorem exec_eq_notEnabled_iff :
    exec i s = .refused (.notEnabled i) ↔ s.fault = .noFault ∧ ¬ Enabled i s := by
  cases i with
  | idle | getmax | build | putp | enable | listen => exact startupOp_eq_notEnabled_iff
  | uev =>
    refine (guarded_eq_notEnabled_iff ?_).trans (by simp [Enabled])
    exact nofun
  | tick =>
    refine (guarded_eq_notEnabled_iff ?_).trans (by simp [Enabled])
    split <;> simp
  | claim => exact (guarded_eq_notEnabled_iff (settle_ne_refused _ _)).trans (by simp [Enabled])
  | adv => exact (guarded_eq_notEnabled_iff (settle_ne_refused _ _)).trans (by simp [Enabled])
  | ack | fold | quad | idx | lut | mux | setd =>
    cases hst : s.stage <;>
      simp [exec, execAck, execFold, execQuad, execIdx, execLut, execMux, execSetd, Enabled, hst,
        guarded_eq_notEnabled_iff]

theorem enabled_iff_of_startup (h : i.agent = .startup) : Enabled i s ↔ s.stage = .idle := by
  cases i with
  | idle | getmax | build | putp | enable | listen => exact Iff.rfl
  | uev | tick | claim | adv | ack | fold | quad | idx | lut | mux | setd => exact nomatch h

theorem advEnabled_iff : advEnabled s = true ↔ s.stage = .claimed ∨ (tickEnabled s && s.run) = true := by
  simp [advEnabled]

end

/-- Settles O34: each hypothesis denies the operation's condition. -/
theorem outOfPlaceIsNotEnabled : Obligations.OutOfPlaceIsNotEnabled := by
  unfold Obligations.OutOfPlaceIsNotEnabled
  intro s hf
  have refused {i : Instr} (h : ¬ Enabled i s) : exec i s = .refused (.notEnabled i) :=
    exec_eq_notEnabled_iff.mpr ⟨hf, h⟩
  refine ⟨fun i hi hst => refused (mt (enabled_iff_of_startup hi).mp hst),
    fun hen => refused fun ⟨h, _⟩ => absurd h (by simp [hen]),
    fun hst hen => refused fun h => (advEnabled_iff.mp h).elim hst (by simp [hen]),
    fun h => refused fun ⟨i, hi⟩ => h i hi,
    fun h => ⟨refused fun ⟨i, hi⟩ => h i hi, refused fun ⟨i, hi⟩ => h i hi⟩,
    fun h => refused fun ⟨i, sel, hi⟩ => h i sel hi,
    fun h => refused fun ⟨z, j, hj⟩ => h z j hj,
    fun h => refused fun ⟨z, e, he⟩ => h z e he,
    fun h => refused fun ⟨d, hd⟩ => h d hd⟩

section
variable (i : Instr) (s : State)

/-- Placing an operation writes what selects it and nothing else (log 3). -/
theorem placeOperation_eq : placeOperation i s = { s with
    stage := (placeOperation i s).stage
    uif := (placeOperation i s).uif
    uie := (placeOperation i s).uie } := by
  cases i <;> rfl

@[simp] theorem placeOperation_cfg : (placeOperation i s).cfg = s.cfg := by rw [placeOperation_eq]
@[simp] theorem placeOperation_sched : (placeOperation i s).sched = s.sched := by rw [placeOperation_eq]
@[simp] theorem placeOperation_fault : (placeOperation i s).fault = s.fault := by rw [placeOperation_eq]
@[simp] theorem placeOperation_run : (placeOperation i s).run = s.run := by rw [placeOperation_eq]

/-- The word of an operation schedules that operation in its place (log 3). -/
theorem withFetchWord_encode :
    s.withFetchWord 8 (encode i).toNat = { placeOperation i s with sched := encode i :: s.sched } := by
  simp [State.withFetchWord, scheduleWord, opWordOfNat_toNat]

theorem nextOperation_withFetchWord :
    nextOperation (s.withFetchWord 8 (encode i).toNat) = .ok (i, placeOperation i s) := by
  rw [withFetchWord_encode, nextOperation_cons _ _ _ i rfl (decode_encode i), ← placeOperation_sched i s]

end

/-- A placed operation that is not DRIVER's stands outside an invocation. -/
theorem placeOperation_stage {i : Instr} (h : i.agent ≠ .driver) (s : State) :
    (placeOperation i s).stage = .idle := by
  cases i with
  | idle | getmax | build | putp | enable | listen | uev => rfl
  | tick | claim | adv | ack | fold | quad | idx | lut | mux | setd => exact absurd rfl h

/-- Only an operation that begins an invocation has the event placed with it (R93). -/
theorem placeOperation_flags {i : Instr} (ht : i ≠ .tick) (hc : i ≠ .claim) (s : State) :
    (placeOperation i s).uif = s.uif ∧ (placeOperation i s).uie = s.uie := by
  cases i with
  | tick => exact absurd rfl ht
  | claim => exact absurd rfl hc
  | _ => exact ⟨rfl, rfl⟩

/-- Before the claim a placed operation has its condition. -/
theorem enabled_placeOperation {s : State} (hrun : s.run = false) (i : Instr) :
    Enabled i (placeOperation i s) := by
  cases i with
  | idle | getmax | build | putp | enable | listen => exact rfl
  | uev => exact trivial
  | tick => exact rfl
  | claim => exact ⟨rfl, by rw [placeOperation_run, hrun]; rfl⟩
  | adv => exact advEnabled_iff.mpr (.inl rfl)
  | ack | fold | quad | setd => exact ⟨_, rfl⟩
  | idx | lut | mux => exact ⟨_, _, rfl⟩

/-- Settles O7: the placed word decodes to its operation and is taken off the schedule again, which leaves
the state the operation was placed in. -/
theorem placedWordRunsNext : Obligations.PlacedWordRunsNext := by
  unfold Obligations.PlacedWordRunsNext
  intro s i hwf
  have hcfg : (s.withFetchWord 8 (encode i).toNat).cfg.wf = true := by
    rw [withFetchWord_encode]
    exact (congrArg Config.wf (placeOperation_cfg i s)).trans hwf
  exact ⟨step_of_operation hcfg (nextOperation_withFetchWord i s), placeOperation_eq i s,
    fun h => placeOperation_stage h s, fun ht hc => placeOperation_flags ht hc s,
    fun _ hrun h => (exec_eq_notEnabled_iff.mp h).2 (enabled_placeOperation hrun i)⟩

end Sys2Proof.Machine
end

section
/-! GETMAX and BUILD (R73, R74): a STARTUP operation with no fault recorded, outside an invocation. -/

namespace Sys2Proof.Machine

section
variable {i : Instr} {s t : State}

/-- An operation that uses the PWM capability is accepted before the claim and raises Owner after it (R129). -/
theorem startupOp_owned (hf : s.fault = .noFault) (hs : s.stage = .idle) :
    (s.run = false → startupOp i s (owned s t) = .next t) ∧
      (s.run = true → startupOp i s (owned s t) = .next { s with fault := .owner }) := by
  constructor <;> intro hrun <;> refine startupOp_eq_next.mpr ⟨hf, hs, ?_⟩
  · exact .inl (by simp [owned, hrun])
  · exact .inr ⟨.owner, by simp [owned, hrun], rfl⟩

/-- An operation that fills a slot is accepted while the slot is EMPTY0 and raises SlotRewrite else (R43). -/
theorem startupOp_slotPut {α : Type} {S : Slot α} {v : α} {f : Slot α → State} (hf : s.fault = .noFault)
    (hs : s.stage = .idle) :
    (S = .empty0 → startupOp i s ((slotPut S v).map f) = .next (f (.full v))) ∧
      (S ≠ .empty0 → startupOp i s ((slotPut S v).map f) = .next { s with fault := .slotRewrite }) := by
  constructor <;> intro hS <;> refine startupOp_eq_next.mpr ⟨hf, hs, ?_⟩
  · exact .inl (by rw [hS]; rfl)
  · exact .inr ⟨.slotRewrite, by rw [slotPut_of_ne_empty0 hS]; rfl, rfl⟩

end

/-- Settles O11: GETMAX is a use of the PWM capability. -/
theorem getmaxReturnsMaxDuty : Obligations.GetmaxReturnsMaxDuty := by
  unfold Obligations.GetmaxReturnsMaxDuty
  exact ⟨rfl, fun _ hf hs => startupOp_owned hf hs⟩

/-- Settles O12: BUILD fills TSLOT, and under `sineTable` the table it puts there is R75's. -/
theorem buildFillsTableSlot : Obligations.BuildFillsTableSlot := by
  unfold Obligations.BuildFillsTableSlot
  refine ⟨rfl, fun s hf hs => ?_⟩
  obtain ⟨hfill, hrewrite⟩ := startupOp_slotPut (i := .build) (S := s.tslot) (v := s.cfg.table)
    (f := fun S => { s with tslot := S }) hf hs
  refine ⟨hfill, fun hempty htable => ?_, hrewrite⟩
  rw [← htable]
  exact hfill hempty

end Sys2Proof.Machine
end

section
/-! The sine table of R75: an entry is the natural number within 1/2 of the scaled sine, a half rounded up
(R76); the properties of R78 and the worked tables of R80. -/

namespace Sys2Proof.Machine

open Real (pi sin cos)

/-- The angle of entry `i`, from 0 at entry 0 to `pi/2` at entry `N` (R75). -/
noncomputable def sineAngle (n i : ℕ) : ℝ := i * (pi / 2) / n

section
variable {n m i j q : ℕ}

theorem sineEntry_eq_floor (n m i : ℕ) : sineEntry n m i = ⌊sin (sineAngle n i) * m + 1 / 2⌋₊ := rfl

theorem sineAngle_nonneg (n i : ℕ) : 0 ≤ sineAngle n i := by
  unfold sineAngle
  positivity

@[simp] theorem sineAngle_zero (n : ℕ) : sineAngle n 0 = 0 := by simp [sineAngle]

theorem sineAngle_self (hn : 0 < n) : sineAngle n n = pi / 2 := by
  unfold sineAngle
  field_simp

theorem sineAngle_mono (n : ℕ) : Monotone (sineAngle n) := fun i j h => by
  unfold sineAngle
  gcongr

theorem sineAngle_le (hn : 0 < n) (hi : i ≤ n) : sineAngle n i ≤ pi / 2 :=
  sineAngle_self hn ▸ sineAngle_mono n hi

theorem two_mul_sineAngle (n i : ℕ) : 2 * sineAngle n i = i * pi / n := by
  unfold sineAngle
  ring

theorem sin_sineAngle_nonneg (hn : 0 < n) (hi : i ≤ n) : 0 ≤ sin (sineAngle n i) :=
  Real.sin_nonneg_of_nonneg_of_le_pi (sineAngle_nonneg n i)
    ((sineAngle_le hn hi).trans (by linarith [Real.pi_pos]))

/-- An entry is the natural number whose half-open interval `[q - 1/2, q + 1/2)` holds the scaled sine. -/
theorem sineEntry_eq (hlo : q - 1 / 2 ≤ sin (sineAngle n i) * m) (hhi : sin (sineAngle n i) * m < q + 1 / 2) :
    sineEntry n m i = q := by
  have hq : (0 : ℝ) ≤ q := q.cast_nonneg
  rw [sineEntry_eq_floor, Nat.floor_eq_iff (by linarith)]
  constructor <;> linarith

theorem sineEntry_zero (n m : ℕ) : sineEntry n m 0 = 0 := by
  apply sineEntry_eq <;> norm_num

theorem sineEntry_self (hn : 0 < n) (m : ℕ) : sineEntry n m n = m := by
  apply sineEntry_eq <;> rw [sineAngle_self hn, Real.sin_pi_div_two] <;> linarith

/-- The table does not decrease, because the sine does not on `[0, pi/2]` and rounding does not. -/
theorem sineEntry_le (hn : 0 < n) (m : ℕ) (hij : i ≤ j) (hj : j ≤ n) : sineEntry n m i ≤ sineEntry n m j := by
  have hsin : sin (sineAngle n i) ≤ sin (sineAngle n j) :=
    Real.sin_le_sin_of_le_of_le_pi_div_two (by linarith [sineAngle_nonneg n i, Real.pi_pos])
      (sineAngle_le hn hj) (sineAngle_mono n hij)
  rw [sineEntry_eq_floor, sineEntry_eq_floor]
  gcongr

/-- An entry from the cosine of twice its angle: `sin^2 x = (1 - cos 2x) / 2`, and squaring keeps the order
of the nonnegative numbers. -/
theorem sineEntry_eq_of_cos {c : ℝ} (hn : 0 < n) (hi : i ≤ n) (hq : 1 ≤ q) (hcos : cos (i * pi / n) = c)
    (hlo : (2 * q - 1 : ℝ) ^ 2 ≤ 2 * m ^ 2 * (1 - c)) (hhi : 2 * m ^ 2 * (1 - c) < (2 * q + 1 : ℝ) ^ 2) :
    sineEntry n m i = q := by
  have hsq : (2 * (sin (sineAngle n i) * m)) ^ 2 = 2 * m ^ 2 * (1 - c) := by
    rw [← hcos, ← two_mul_sineAngle, mul_pow, mul_pow, Real.sin_sq_eq_half_sub]
    ring
  have hq' : (1 : ℝ) ≤ q := mod_cast hq
  have hsin : 0 ≤ 2 * (sin (sineAngle n i) * m) := by
    have := sin_sineAngle_nonneg hn hi
    positivity
  rw [← hsq] at hlo hhi
  apply sineEntry_eq
  · linarith [(sq_le_sq₀ (by linarith) hsin).mp hlo]
  · linarith [(sq_lt_sq₀ hsin (by linarith)).mp hhi]

end

/-- Settles O47: the two ends are exact because the sine is there, and monotonicity gives the bound. -/
theorem sineTableProperties : Obligations.SineTableProperties := by
  unfold Obligations.SineTableProperties
  intro n m hn _
  refine ⟨sineEntry_zero n m, sineEntry_self hn m, fun i hi => sineEntry_le hn m i.le_succ hi, fun i hi => ?_⟩
  calc sineEntry n m i ≤ sineEntry n m n := sineEntry_le hn m hi le_rfl
    _ = m := sineEntry_self hn m

theorem sineEntries_four : (List.range 5).map (sineEntry 4 100) = [0, 38, 71, 92, 100] := by
  have hsqrt : 1.41 < √(2 : ℝ) ∧ √(2 : ℝ) < 1.42 :=
    ⟨Real.lt_sqrt_of_sq_lt (by norm_num), (Real.sqrt_lt' (by norm_num)).mpr (by norm_num)⟩
  have entry_one : sineEntry 4 100 1 = 38 := by
    have hcos : cos ((1 : ℕ) * pi / (4 : ℕ)) = √2 / 2 := by norm_num
    apply sineEntry_eq_of_cos _ _ _ hcos <;> norm_num <;> linarith
  have entry_two : sineEntry 4 100 2 = 71 := by
    have hcos : cos ((2 : ℕ) * pi / (4 : ℕ)) = 0 := by
      rw [← Real.cos_pi_div_two]
      ring_nf
    apply sineEntry_eq_of_cos _ _ _ hcos <;> norm_num
  have entry_three : sineEntry 4 100 3 = 92 := by
    have hcos : cos ((3 : ℕ) * pi / (4 : ℕ)) = -(√2 / 2) := by
      rw [← Real.cos_pi_div_four, ← Real.cos_pi_sub]
      ring_nf
    apply sineEntry_eq_of_cos _ _ _ hcos <;> norm_num <;> linarith
  simp [List.range_succ, sineEntry_zero, sineEntry_self, entry_one, entry_two, entry_three]

theorem sineEntries_one (m : ℕ) : (List.range 2).map (sineEntry 1 m) = [0, m] := by
  simp [List.range_succ, sineEntry_zero, sineEntry_self]

theorem sineEntries_two : (List.range 3).map (sineEntry 2 100) = [0, 71, 100] := by
  have entry_one : sineEntry 2 100 1 = 71 := by
    have hcos : cos ((1 : ℕ) * pi / (2 : ℕ)) = 0 := by norm_num
    apply sineEntry_eq_of_cos _ _ _ hcos <;> norm_num
  simp [List.range_succ, sineEntry_zero, sineEntry_self, entry_one]

/-- The first entry is the tie of R76: there the lower bound of the interval holds with equality. -/
theorem sineEntries_three : (List.range 4).map (sineEntry 3 5) = [0, 3, 4, 5] := by
  have entry_one : sineEntry 3 5 1 = 3 := by
    have hcos : cos ((1 : ℕ) * pi / (3 : ℕ)) = 1 / 2 := by norm_num
    apply sineEntry_eq_of_cos _ _ _ hcos <;> norm_num
  have entry_two : sineEntry 3 5 2 = 4 := by
    have hcos : cos ((2 : ℕ) * pi / (3 : ℕ)) = -(1 / 2) := by
      rw [← Real.cos_pi_div_three, ← Real.cos_pi_sub]
      ring_nf
    apply sineEntry_eq_of_cos _ _ _ hcos <;> norm_num
  simp [List.range_succ, sineEntry_zero, sineEntry_self, entry_one, entry_two]

/-- Settles O48: the ends of each table are exact, and the entries between them follow from the cosines of
`pi/4`, `pi/2`, `3 pi/4`, `pi/3` and `2 pi/3`. -/
theorem workedSineTables : Obligations.WorkedSineTables := by
  unfold Obligations.WorkedSineTables
  exact ⟨sineEntries_four, fun m _ => sineEntries_one m, sineEntries_two, sineEntries_three⟩

end Sys2Proof.Machine
end

section
/-! The table of the reset configuration (spec/95_test_vectors.md section 2). The sine of `i * pi/100` is the
imaginary part of the `i`-th power of the turn `e^(I pi/100)`. A Gaussian integer close to `10^6` times the
turn has powers that are computed exactly, and they stay close enough to decide every entry. -/

namespace Sys2Proof.Machine

open Real (pi sin cos)

/-- Powers in the unit disc drift apart at most linearly in the exponent. -/
theorem norm_pow_sub_pow_le {z w : ℂ} (hz : ‖z‖ ≤ 1) (hw : ‖w‖ ≤ 1) (k : ℕ) :
    ‖z ^ k - w ^ k‖ ≤ k * ‖z - w‖ := by
  induction k with
  | zero => simp
  | succ k ih =>
    have hzk : ‖z ^ k‖ ≤ 1 := by
      rw [norm_pow]
      exact pow_le_one₀ (norm_nonneg z) hz
    calc ‖z ^ (k + 1) - w ^ (k + 1)‖ = ‖z ^ k * (z - w) + (z ^ k - w ^ k) * w‖ := by ring_nf
      _ ≤ ‖z ^ k‖ * ‖z - w‖ + ‖z ^ k - w ^ k‖ * ‖w‖ := by
        simpa only [norm_mul] using norm_add_le (z ^ k * (z - w)) ((z ^ k - w ^ k) * w)
      _ ≤ 1 * ‖z - w‖ + k * ‖z - w‖ * 1 := by gcongr
      _ = (k + 1 : ℕ) * ‖z - w‖ := by
        push_cast
        ring

/-- The turn from one entry of the table for `N = 50` to the next. -/
noncomputable def turn : ℂ := Complex.exp ((pi / 100 : ℝ) * Complex.I)

/-- `10^6` times the turn, both parts rounded down. -/
def roundedTurn : GaussianInt := ⟨999506, 31410⟩

theorem norm_turn : ‖turn‖ = 1 := Complex.norm_exp_ofReal_mul_I _

theorem turn_pow_im (k : ℕ) : (turn ^ k).im = sin (k * (pi / 100)) := by
  rw [turn, ← Complex.exp_nat_mul, ← mul_assoc, ← Complex.ofReal_natCast, ← Complex.ofReal_mul,
    Complex.exp_ofReal_mul_I_im]

theorem norm_roundedTurn_le : ‖(roundedTurn / 1000000 : ℂ)‖ ≤ 1 := by
  rw [← sq_le_one_iff₀ (norm_nonneg _), Complex.sq_norm, map_div₀, ← GaussianInt.intCast_real_norm]
  norm_num [roundedTurn, Zsqrtd.norm_def]

theorem roundedTurn_pow_im (k : ℕ) :
    ((roundedTurn / 1000000 : ℂ) ^ k).im = (roundedTurn ^ k).im / 1000000 ^ k := by
  have hscale : (roundedTurn / 1000000 : ℂ) ^ k = (roundedTurn ^ k : GaussianInt) / (1000000 ^ k : ℝ) := by
    rw [div_pow, map_pow]
    norm_num
  rw [hscale, Complex.div_ofReal_im, GaussianInt.intCast_im]

/-- The sine and the cosine of `pi/100` to six digits, from six digits of `pi` and Mathlib's `sin_bound` and
`cos_bound`. -/
theorem sin_cos_pi_div_hundred_near :
    |sin (pi / 100) - 31410 / 1000000| ≤ 1 / 1000000 ∧ |cos (pi / 100) - 999506 / 1000000| ≤ 1 / 1000000 := by
  have hlo : 0.03141592 ≤ pi / 100 := by linarith [Real.pi_gt_d6]
  have hhi : pi / 100 ≤ 0.03141593 := by linarith [Real.pi_lt_d6]
  have hpow (k : ℕ) : 0.03141592 ^ k ≤ (pi / 100) ^ k ∧ (pi / 100) ^ k ≤ 0.03141593 ^ k :=
    ⟨by gcongr, by gcongr⟩
  have habs : |pi / 100| = pi / 100 := abs_of_pos (by linarith)
  have hsin := Real.sin_bound (x := pi / 100) (by linarith)
  have hcos := Real.cos_bound (x := pi / 100) (by linarith)
  rw [habs, abs_le] at hsin hcos
  simp only [abs_le]
  refine ⟨⟨?_, ?_⟩, ?_, ?_⟩ <;> linarith [hpow 2, hpow 3, hpow 4, hpow 5]

theorem norm_turn_sub_roundedTurn_le : ‖turn - roundedTurn / 1000000‖ ≤ 2 / 1000000 := by
  obtain ⟨hsin, hcos⟩ := sin_cos_pi_div_hundred_near
  have hre : (turn - roundedTurn / 1000000).re = cos (pi / 100) - 999506 / 1000000 := by
    rw [Complex.sub_re, turn, Complex.exp_ofReal_mul_I_re]
    simp [roundedTurn, GaussianInt.toComplex_def₂]
  have him : (turn - roundedTurn / 1000000).im = sin (pi / 100) - 31410 / 1000000 := by
    rw [Complex.sub_im, turn, Complex.exp_ofReal_mul_I_im]
    simp [roundedTurn, GaussianInt.toComplex_def₂]
  calc ‖turn - roundedTurn / 1000000‖ ≤ _ := Complex.norm_le_abs_re_add_abs_im _
    _ ≤ 2 / 1000000 := by
      rw [hre, him]
      linarith

/-- The sine of every entry's angle by exact integer arithmetic: each turn adds at most `2/10^6` to the
error. -/
theorem abs_sin_sub_roundedTurn_pow_le (k : ℕ) :
    |sin (k * (pi / 100)) - (roundedTurn ^ k).im / 1000000 ^ k| ≤ k * (2 / 1000000) := by
  rw [← turn_pow_im, ← roundedTurn_pow_im, ← Complex.sub_im]
  calc |(turn ^ k - (roundedTurn / 1000000 : ℂ) ^ k).im|
      ≤ ‖turn ^ k - (roundedTurn / 1000000 : ℂ) ^ k‖ := Complex.abs_im_le_norm _
    _ ≤ k * ‖turn - roundedTurn / 1000000‖ := norm_pow_sub_pow_le norm_turn.le norm_roundedTurn_le k
    _ ≤ k * (2 / 1000000) := by
      gcongr
      exact norm_turn_sub_roundedTurn_le

theorem sineAngle_fifty (i : ℕ) : sineAngle 50 i = i * (pi / 100) := by
  unfold sineAngle
  push_cast
  ring

/-- The test that `q` is entry `i` for `N = 50` and `MAX_DUTY = 100`: the integer approximation of the scaled
sine is within 1/2 of `q` by more than its error. All is multiplied by `2 * 10^6 * 10^(6 i)`. -/
def SettlesEntry (i q : ℕ) : Prop :=
  2 * 1000000 * |100 * (roundedTurn ^ i).im - q * 1000000 ^ i| + 400 * i * 1000000 ^ i < 1000000 * 1000000 ^ i

theorem SettlesEntry.sineEntry_eq {i q : ℕ} (h : SettlesEntry i q) : sineEntry 50 100 i = q := by
  have hpow : (0 : ℝ) < 1000000 ^ i := by positivity
  have hsplit : (100 * (roundedTurn ^ i).im - q * 1000000 ^ i : ℝ) =
      (100 * ((roundedTurn ^ i).im / 1000000 ^ i) - q) * 1000000 ^ i := by
    field_simp
  have hreal : 2 * 1000000 * |(100 * (roundedTurn ^ i).im - q * 1000000 ^ i : ℝ)| + 400 * i * 1000000 ^ i <
      1000000 * 1000000 ^ i := mod_cast h
  rw [hsplit, abs_mul, abs_of_pos hpow, ← mul_assoc, ← add_mul, mul_lt_mul_iff_left₀ hpow] at hreal
  have hsin := abs_le.mp (abs_sin_sub_roundedTurn_pow_le i)
  have habs := abs_le.mp (le_refl |100 * ((roundedTurn ^ i).im / 1000000 ^ i : ℝ) - q|)
  apply Machine.sineEntry_eq <;> rw [sineAngle_fifty] <;> push_cast <;> linarith

/-- The carried table passes the test: fifty-one comparisons of integers. -/
theorem settlesEntry_table50x100 :
    ∀ i (hi : i < Config.table50x100.length), SettlesEntry i Config.table50x100[i] := by
  unfold SettlesEntry
  decide

/-- Settles O49: both tables have fifty-one entries, and each carried entry passes the test. -/
theorem carriedTableIsRoundedSine : Obligations.CarriedTableIsRoundedSine := by
  unfold Obligations.CarriedTableIsRoundedSine sineTable
  refine List.ext_getElem (by simp [Config.hardware, Config.table50x100]) fun i hi _ => ?_
  rw [List.getElem_map, List.getElem_range]
  exact (settlesEntry_table50x100 i hi).sineEntry_eq.symm

end Sys2Proof.Machine
end

section
/-! PUTP, ENABLE, LISTEN and IDLE (R82, R84, R86, R88), and the IDLE steps of a run (R51). -/

namespace Sys2Proof.Machine

section
variable {i : Instr} {l : List Instr} {s t : State}

theorem exec_idle (hf : s.fault = .noFault) (hs : s.stage = .idle) : exec .idle s = .next s :=
  startupOp_eq_next.mpr ⟨hf, hs, .inl rfl⟩

/-- A run of at least one operation goes through the state its first operation answers. -/
theorem execAll_cons_eq_next :
    execAll (i :: l) s = .next t ↔ ∃ u, exec i s = .next u ∧ execAll l u = .next t := by
  cases h : exec i s <;> simp [execAll, h]

theorem execAll_replicate_of_fixed (h : exec i s = .next s) (k : Nat) :
    execAll (List.replicate k i) s = .next s := by
  induction k with
  | zero => rfl
  | succ k ih => exact execAll_cons_eq_next.mpr ⟨s, h, ih⟩

/-- An IDLE on the way left the state as it was, so the run goes on without it from the same state. -/
theorem execAll_filter_ne_idle (h : execAll l s = .next t) : execAll (l.filter (· ≠ .idle)) s = .next t := by
  induction l generalizing s with
  | nil => exact h
  | cons i l ih =>
    obtain ⟨u, hu, hrest⟩ := execAll_cons_eq_next.mp h
    by_cases hi : i = .idle
    · subst hi
      obtain ⟨-, rfl⟩ := exec_idle_next hu
      simpa using ih hrest
    · rw [List.filter_cons_of_pos (by simpa using hi)]
      exact execAll_cons_eq_next.mpr ⟨u, hu, ih hrest⟩

/-- Once parked, STARTUP issues IDLE only, so its operations are the IDLE steps of the run (R88). -/
theorem filter_ne_idle_of_parked (h : parkedAfterIdle (startupPart (.idle :: l)) = true) :
    l.filter (· ≠ .idle) = l.filter (·.agent ≠ .startup) := by
  have hall : (startupPart l).all (· = .idle) = true := (Bool.and_eq_true_iff.mp h).1
  have honly : ∀ i ∈ l, i.agent = .startup → i = .idle := by
    simpa [startupPart, imp_iff_not_or] using hall
  refine List.filter_congr fun i hi => decide_eq_decide.mpr (not_congr ⟨?_, honly i hi⟩)
  rintro rfl
  rfl

end

/-- Settles O16: IDLE answers the state it began in, so a run goes the same way without its IDLE steps, and
these are all that a parked STARTUP issues. -/
theorem idleChangesNothing : Obligations.IdleChangesNothing := by
  unfold Obligations.IdleChangesNothing
  refine ⟨rfl, fun s hf hs => ?_⟩
  have hidle := exec_idle hf hs
  refine ⟨hidle, execAll_replicate_of_fixed hidle, fun _ _ => execAll_filter_ne_idle, fun l t hparked h => ?_⟩
  rw [← filter_ne_idle_of_parked hparked]
  exact execAll_filter_ne_idle (l := .idle :: l) h

/-- Settles O13: PUTP fills PSLOT. -/
theorem putpFillsHandleSlot : Obligations.PutpFillsHandleSlot := by
  unfold Obligations.PutpFillsHandleSlot
  exact ⟨rfl, fun s hf hs => startupOp_slotPut (f := fun S => { s with pslot := S }) hf hs⟩

/-- Settles O14: ENABLE is a use of the PWM capability. -/
theorem enableSetsPwmEn : Obligations.EnableSetsPwmEn := by
  unfold Obligations.EnableSetsPwmEn
  exact ⟨rfl, fun _ hf hs => startupOp_owned hf hs⟩

/-- Settles O15: LISTEN is a use of the PWM capability, and the bit it sets is all that TICK then lacks beside
the pending event. -/
theorem listenArmsInterrupt : Obligations.ListenArmsInterrupt := by
  unfold Obligations.ListenArmsInterrupt
  refine ⟨rfl, fun s hf hs => ?_⟩
  obtain ⟨harm, howner⟩ := startupOp_owned (i := .listen) (t := { s with uie := true }) hf hs
  refine ⟨harm, fun _ => ?_, howner⟩
  simp [tickEnabled_iff, hs]

end Sys2Proof.Machine
end

section
/-! The phase accumulator (R97, R99): `k` advances add `k` modulo `4N`. -/

namespace Sys2Proof.Machine

theorem advancedPhase_iterate {n p : Nat} (hp : p < 4 * n) (k : Nat) :
    (advancedPhase n)^[k] p = (p + k) % (4 * n) := by
  induction k with
  | zero => exact (Nat.mod_eq_of_lt hp).symm
  | succ k ih =>
    rw [Function.iterate_succ_apply', ih, advancedPhase_mod (by omega), Nat.add_assoc]

/-- Adding modulo `m` reaches each remainder by exactly one summand below `m`: for R99, `m` is `4N`. -/
theorem existsUnique_add_mod_eq {m p q : Nat} (hp : p < m) (hq : q < m) :
    ∃! k, k < m ∧ (p + k) % m = q := by
  have hreach : (p + (q + (m - p)) % m) % m = q := by
    rw [Nat.add_mod_mod, show p + (q + (m - p)) = q + m by omega, Nat.add_mod_right, Nat.mod_eq_of_lt hq]
  have hlt : (q + (m - p)) % m < m := Nat.mod_lt _ (by omega)
  refine ⟨_, ⟨hlt, hreach⟩, fun k ⟨hk, h⟩ => ?_⟩
  have hmod : k ≡ (q + (m - p)) % m [MOD m] := Nat.ModEq.add_left_cancel' p (h.trans hreach.symm)
  exact hmod.eq_of_lt_of_lt hk hlt

/-- Settles O43: `k` advances lead from `p` to `(p + k) mod 4N`, which is each value in range for one `k`. -/
theorem advanceVisitsEveryPhase : Obligations.AdvanceVisitsEveryPhase := by
  unfold Obligations.AdvanceVisitsEveryPhase
  intro n p hp
  refine ⟨advancedPhase_of_lt hp, ?_, ?_, fun q hq => ?_⟩
  · rw [advancedPhase_of_lt hp]
    exact Nat.mod_lt _ (by omega)
  · rw [advancedPhase_iterate hp, Nat.add_mod_right, Nat.mod_eq_of_lt hp]
  · simpa only [advancedPhase_iterate hp] using existsUnique_add_mod_eq hp hq

/-- Settles O44: the first advance of the counter that starts at `4N - 1` gives 0. -/
theorem preIncrementFormIsEqual : Obligations.PreIncrementFormIsEqual := by
  unfold Obligations.PreIncrementFormIsEqual
  intro n hn
  have hwrap : advancedPhase n (4 * n - 1) = 0 := if_pos (by omega)
  have hshift (j : Nat) : (advancedPhase n)^[j + 1] (4 * n - 1) = (advancedPhase n)^[j] 0 := by
    rw [Function.iterate_succ_apply, hwrap]
  have hcount (j : Nat) : (advancedPhase n)^[j] 0 = j % (4 * n) := by
    rw [advancedPhase_iterate (by omega), Nat.zero_add]
  refine ⟨hshift, hcount, fun c k hc => ?_⟩
  simp only [hshift, hcount, waveform, hc]

end Sys2Proof.Machine
end

section
/-! The rules of UEV, TICK, CLAIM, ADV and ACK (R91 to R101): what each answers where it is enabled. -/

namespace Sys2Proof.Machine

section
variable {s t u : State}

/-- With a fault recorded every operation is stopped (R126). -/
theorem exec_stopped (hf : s.fault ≠ .noFault) (i : Instr) : exec i s = .fault (.stopped s.fault) := by
  cases i with
  | idle | getmax | build | putp | enable | listen | uev | tick | claim | adv => exact guarded_stopped hf
  | ack | fold | quad | idx | lut | mux | setd =>
    simp only [exec, execAck, execFold, execQuad, execIdx, execLut, execMux, execSetd]
    split <;> exact guarded_stopped hf

theorem exec_uev (hf : s.fault = .noFault) : exec .uev s = .next { s with uif := uifAfterEvent s } :=
  guarded_enabled hf rfl

/-- The flag after an event: armed or latched events are remembered, and a pending one stays (R91, R92). -/
theorem uifAfterEvent_eq (s : State) : uifAfterEvent s = (s.uie || s.cfg.latchUnarmed || s.uif) := by
  cases h : (s.uie || s.cfg.latchUnarmed) <;> simp [uifAfterEvent, h]

/-- An event while one is pending is lost (R91). -/
theorem exec_uev_of_pending (hf : s.fault = .noFault) (h : s.uif = true) : exec .uev s = .next s := by
  rw [exec_uev hf, uifAfterEvent_eq, h, Bool.or_true, ← h]

theorem exec_uev_of_armed (hf : s.fault = .noFault) (hu : s.uie = true) :
    exec .uev s = .next { s with uif := true } := by
  rw [exec_uev hf, uifAfterEvent_eq, hu, Bool.true_or, Bool.true_or]

theorem bothFull_iff : bothFull s = true ↔ (∃ T, s.tslot = .full T) ∧ s.pslot = .full PwmHandle.mk := by
  cases hT : s.tslot <;> cases hp : s.pslot <;> simp [bothFull, hT, hp]

/-- Without both slots FULL a claim raises SlotEmpty (R95). -/
theorem claimSlots_of_not_bothFull (h : bothFull s = false) : claimSlots s = .error .slotEmpty := by
  cases hc : claimSlots s with
  | ok u =>
    obtain ⟨T, hT, hp, -⟩ := claimSlots_eq_ok.mp hc
    exact absurd (bothFull_iff.mpr ⟨⟨T, hT⟩, hp⟩) (by simp [h])
  | error c => rw [(claimSlots_error hc).1]

/-- A first invocation without both slots FULL ends at its claim (R95). -/
theorem invocation_of_not_bothFull (hrun : s.run = false) (h : bothFull s = false) :
    invocation s = .error .slotEmpty := by
  simp [invocation, claimIfNeeded, hrun, claimSlots_of_not_bothFull h]

/-- Every fault of an invocation has a code (R125). -/
theorem invocation_error_ne_noFault {c : FaultCode} (h : invocation s = .error c) : c ≠ .noFault := by
  obtain ⟨rfl, -⟩ | ⟨u, -, ⟨rfl, -⟩ | ⟨rfl, -⟩⟩ := invocation_error h <;> decide

/-- A fault of its invocation is all that a TICK records (R93). -/
theorem exec_tick_of_error (hf : s.fault = .noFault) (hen : tickEnabled s = true) {c : FaultCode}
    (h : invocation s = .error c) : exec .tick s = .next { s with fault := c } :=
  guarded_eq_next.mpr ⟨hf, hen, by rw [h]; exact raise_of_noFault c hf⟩

/-- What a TICK without a fault has done (R93): claimed if `RUN` was 0, advanced, acknowledged, folded and
written a duty in range. -/
theorem exec_tick_eq_next_iff (ht : t.fault = .noFault) :
    exec .tick s = .next t ↔ s.fault = .noFault ∧ tickEnabled s = true ∧ ∃ u d, claimIfNeeded s = .ok u ∧
      u.phase < 4 * u.cfg.n ∧ foldStaged u u.phase = .ok d ∧ d ≤ u.cfg.maxDuty ∧ t = { u with
        phase := advancedPhase u.cfg.n u.phase, uif := false, duty := d, out := u.out ++ [d] } := by
  constructor
  · intro h
    obtain ⟨hen, ⟨v, d, hv, hd, rfl⟩ | ⟨c, hc, rfl⟩⟩ := exec_tick_next h
    · obtain ⟨u, hu, hp, hfold, rfl⟩ := invocation_eq_ok.mp hv
      exact ⟨exec_next_noFault h, hen, u, d, hu, hp, hfold, hd, rfl⟩
    · exact absurd ht (invocation_error_ne_noFault hc)
  · rintro ⟨hf, hen, u, d, hu, hp, hfold, hd, rfl⟩
    refine guarded_eq_next.mpr ⟨hf, hen, ?_⟩
    rw [invocation_eq_ok.mpr ⟨u, hu, hp, hfold, rfl⟩]
    exact setDuty_eq_next.mpr ⟨hd, rfl⟩

/-- A claim, needed or not, records no fault. -/
theorem claimIfNeeded_ok_fault (h : claimIfNeeded s = .ok u) : u.fault = s.fault := by
  obtain ⟨-, rfl⟩ | ⟨-, T, -, -, rfl⟩ := claimIfNeeded_eq_ok.mp h <;> rfl

/-- A TICK whose claim, needed or not, leaves a table of `N + 1` entries in range writes the fold of that
table (R93, R105). -/
theorem exec_tick_of_claimIfNeeded (hf : s.fault = .noFault) (hen : tickEnabled s = true)
    (hu : claimIfNeeded s = .ok u) (hp : u.phase < 4 * u.cfg.n) (hlen : u.tab.length = u.cfg.n + 1)
    (hle : ∀ d ∈ u.tab, d ≤ u.cfg.maxDuty) :
    exec .tick s = .next { u with
      phase := (u.phase + 1) % (4 * u.cfg.n)
      uif := false
      duty := fold u.cfg.n u.tab u.phase
      out := u.out ++ [fold u.cfg.n u.tab u.phase] } := by
  rw [← advancedPhase_of_lt hp]
  refine (exec_tick_eq_next_iff ?_).mpr
    ⟨hf, hen, u, _, hu, hp, foldStaged_eq_fold hlen hp, fold_le hp hle, rfl⟩
  exact (claimIfNeeded_ok_fault hu).trans hf

/-- CLAIM as a step of its own writes what the claim of a TICK does, and hands on to ADV (R94, R104). -/
theorem exec_claim_of_ok (hf : s.fault = .noFault) (hen : tickEnabled s = true) (hrun : s.run = false)
    (hu : claimSlots s = .ok u) : exec .claim s = .next { u with stage := .claimed } :=
  guarded_eq_next.mpr ⟨hf, by simp [hen, hrun], by rw [hu]; rfl⟩

theorem exec_claim_of_not_bothFull (hf : s.fault = .noFault) (hen : tickEnabled s = true)
    (h : bothFull s = false) : exec .claim s = .next { s with fault := .slotEmpty } :=
  guarded_eq_next.mpr
    ⟨hf, by simp [hen, h], by rw [claimSlots_of_not_bothFull h]; exact raise_of_noFault _ hf⟩

theorem exec_adv_of_lt (hf : s.fault = .noFault) (hen : advEnabled s = true) (hp : s.phase < 4 * s.cfg.n) :
    exec .adv s = .next { s with phase := advancedPhase s.cfg.n s.phase, stage := .advanced s.phase } :=
  guarded_eq_next.mpr ⟨hf, hen, by rw [advance_eq_ok.mpr ⟨hp, rfl, rfl⟩]; rfl⟩

theorem exec_adv_of_ge (hf : s.fault = .noFault) (hen : advEnabled s = true) (hp : 4 * s.cfg.n ≤ s.phase) :
    exec .adv s = .next { s with fault := .phaseRange } :=
  guarded_eq_next.mpr ⟨hf, hen, by
    rw [show advance s = .error .phaseRange from if_pos hp]
    exact raise_of_noFault _ hf⟩

theorem exec_ack {i : Nat} (hf : s.fault = .noFault) (hs : s.stage = .advanced i) :
    exec .ack s = .next { s with uif := false, stage := .acked i } := by
  simp only [exec, execAck, hs]
  exact guarded_enabled hf rfl

end

/-- Settles O17: an event sets the flag where it is remembered, and a flag that is set stays set. -/
theorem eventSetsPendingFlag : Obligations.EventSetsPendingFlag := by
  unfold Obligations.EventSetsPendingFlag
  refine ⟨rfl, fun s hf => ⟨fun h => ?_, exec_uev_of_pending hf, fun hu hl => ?_⟩⟩
  · have hset : uifAfterEvent s = true := by
      rw [uifAfterEvent_eq, Bool.or_eq_true_iff.mpr h, Bool.true_or]
    rw [exec_uev hf, hset]
  · have hkeep : uifAfterEvent s = s.uif := by
      rw [uifAfterEvent_eq, hu, hl, Bool.or_false, Bool.false_or]
    rw [exec_uev hf, hkeep]

/-- Settles O18: the event leaves `LATCH_UNARMED` in the flag and LISTEN arms it. -/
theorem unarmedEventByParameter : Obligations.UnarmedEventByParameter := by
  unfold Obligations.UnarmedEventByParameter
  intro s hf hs hrun hu hi
  have hevent : exec .uev s = .next { s with uif := s.cfg.latchUnarmed } := by
    rw [exec_uev hf, uifAfterEvent_eq, hu, hi, Bool.false_or, Bool.or_false]
  have hlisten := (startupOp_owned (i := .listen) (s := { s with uif := s.cfg.latchUnarmed })
    (t := { s with uif := s.cfg.latchUnarmed, uie := true }) hf hs).1 hrun
  have hlast : execAll [.uev, .listen] s = _ :=
    execAll_cons_eq_next.mpr ⟨_, hevent, execAll_cons_eq_next.mpr ⟨_, hlisten, rfl⟩⟩
  exact ⟨_, hlast, rfl, rfl, by simp [tickEnabled, hs], rfl⟩

/-- Settles O19: a running TICK needs no claim. -/
theorem tickWritesFoldedDuty : Obligations.TickWritesFoldedDuty := by
  unfold Obligations.TickWritesFoldedDuty
  intro s hf hs hi hu hrun hp hlen hle
  exact exec_tick_of_claimIfNeeded hf (tickEnabled_iff.mpr ⟨hs, hi, hu⟩)
    (claimIfNeeded_eq_ok.mpr (.inl ⟨hrun, rfl⟩)) hp hlen hle

/-- Settles O21: the claim moves the slot's table into `TAB`, and the TICK goes on from there. -/
theorem firstTickClaimsAndWrites : Obligations.FirstTickClaimsAndWrites := by
  unfold Obligations.FirstTickClaimsAndWrites
  intro s T hf hs hi hu hrun hT hH hp hlen hle
  exact exec_tick_of_claimIfNeeded hf (tickEnabled_iff.mpr ⟨hs, hi, hu⟩)
    (claimIfNeeded_eq_ok.mpr (.inr ⟨hrun, T, hT, hH, rfl⟩)) hp hlen hle

/-- Settles O22: the claim of the first TICK raises SlotEmpty, which stops the machine. -/
theorem earlyTickRaisesSlotEmpty : Obligations.EarlyTickRaisesSlotEmpty := by
  unfold Obligations.EarlyTickRaisesSlotEmpty
  intro s hf hs hi hu hrun hslots
  have hnot : bothFull s = false := by
    rw [Bool.eq_false_iff, Ne, bothFull_iff]
    rintro ⟨⟨T, hT⟩, hh⟩
    exact hslots.elim (fun hn => hn T hT) (fun hn => hn _ hh)
  have hraise := invocation_of_not_bothFull hrun hnot
  exact ⟨exec_tick_of_error hf (tickEnabled_iff.mpr ⟨hs, hi, hu⟩) hraise, exec_stopped nofun⟩

/-- Settles O24: each hypothesis denies TICK's condition, and a TICK without a fault clears the flag. -/
theorem tickNeedsArmedEvent : Obligations.TickNeedsArmedEvent := by
  unfold Obligations.TickNeedsArmedEvent
  intro s hf
  refine ⟨fun h => exec_eq_notEnabled_iff.mpr ⟨hf, fun hen => ?_⟩, fun t h ht => ?_⟩
  · obtain ⟨hs, hi, hu⟩ := tickEnabled_iff.mp hen
    simp [hs, hi, hu] at h
  · obtain ⟨-, -, u, d, -, -, -, -, rfl⟩ := (exec_tick_eq_next_iff ht).mp h
    refine ⟨rfl, exec_eq_notEnabled_iff.mpr ⟨ht, fun hen => ?_⟩⟩
    obtain ⟨-, hi, -⟩ := tickEnabled_iff.mp hen
    exact nomatch hi

/-- Settles O25: the invariant gives the hypotheses of O19, with `TAB` the configuration's table. -/
theorem runningTickNeverFaults : Obligations.RunningTickNeverFaults := by
  unfold Obligations.RunningTickNeverFaults
  intro s hinv hf hen hrun
  have htab := hinv.claimedTable hrun
  have hle : ∀ d ∈ s.tab, d ≤ s.cfg.maxDuty := htab ▸ Config.table_le_maxDuty hinv.config
  have hnext := exec_tick_of_claimIfNeeded hf hen (claimIfNeeded_eq_ok.mpr (.inl ⟨hrun, rfl⟩))
    hinv.phase_lt hinv.tabLength hle
  exact ⟨_, hnext, hf, by rw [← htab], fold_le hinv.phase_lt hle⟩

/-- Settles O27: CLAIM is the claim of a TICK; with both slots FULL and `RUN = 1` its condition fails. -/
theorem claimTakesBothSlots : Obligations.ClaimTakesBothSlots := by
  unfold Obligations.ClaimTakesBothSlots
  refine ⟨rfl, fun s hf hen => ⟨fun T h hrun hT hh => ?_, exec_claim_of_not_bothFull hf hen,
    fun hrun hfull => ?_⟩⟩
  · exact exec_claim_of_ok hf hen hrun (claimSlots_eq_ok.mpr ⟨T, hT, hh, rfl⟩)
  · exact exec_eq_notEnabled_iff.mpr ⟨hf, fun ⟨_, hcond⟩ => by simp [hrun, hfull] at hcond⟩

/-- Settles O28: ADV's stored value is the remainder for a phase value in range, and PhaseRange is raised
beyond it. -/
theorem advanceStepsPhase : Obligations.AdvanceStepsPhase := by
  unfold Obligations.AdvanceStepsPhase
  refine ⟨rfl, fun s hf hen => ?_⟩
  rw [← Bool.and_eq_true, ← advEnabled_iff] at hen
  refine ⟨fun hp => ?_, exec_adv_of_ge hf hen⟩
  rw [exec_adv_of_lt hf hen hp, advancedPhase_of_lt hp]

/-- Settles O29: ACK where ADV has handed it a phase value. -/
theorem acknowledgeClearsFlag : Obligations.AcknowledgeClearsFlag := by
  unfold Obligations.AcknowledgeClearsFlag
  exact ⟨rfl, fun _ _ hf hs => exec_ack hf hs⟩

end Sys2Proof.Machine
end

section
/-! Runs of a TICK and of its sub-operations: several events before one TICK (R103, R135), FOLD as its stages
(R105), the split form (R104) and an event inside it. -/

namespace Sys2Proof.Machine

section
variable {s t u : State} {i : Nat} {l m : List Instr}

/-! ### The rules of FOLD, its stages and SETD -/

theorem exec_fold_of_ok {d : Duty} (hf : s.fault = .noFault) (hs : s.stage = .acked i)
    (hd : foldStaged s i = .ok d) : exec .fold s = .next { s with stage := .folded d } := by
  simp only [exec, execFold, hs]
  exact guarded_eq_next.mpr ⟨hf, rfl, by rw [hd]; rfl⟩

theorem exec_fold_of_error {c : FaultCode} (hf : s.fault = .noFault) (hs : s.stage = .acked i)
    (hd : foldStaged s i = .error c) : exec .fold s = .next { s with fault := c } := by
  simp [exec, execFold, hs, hd, guarded_enabled hf, Except.map, raise_of_noFault c hf]

theorem exec_quad (hf : s.fault = .noFault) (hs : s.stage = .acked i) :
    exec .quad s = .next { s with stage := .decoded i (selectOf s.cfg.n i) } := by
  simp only [exec, execQuad, hs]
  exact guarded_enabled hf rfl

theorem exec_idx {sel : Select} (hf : s.fault = .noFault) (hs : s.stage = .decoded i sel) :
    exec .idx s = .next { s with stage := .indexed sel.zero (indexOf s.cfg.n i sel.quad) } := by
  simp only [exec, execIdx, hs]
  exact guarded_enabled hf rfl

theorem exec_lut_of_ok {z : Bool} {j : Nat} {e : Duty} (hf : s.fault = .noFault)
    (hs : s.stage = .indexed z j) (he : tabRead s j = .ok e) :
    exec .lut s = .next { s with stage := .looked z e } := by
  simp only [exec, execLut, hs]
  exact guarded_eq_next.mpr ⟨hf, rfl, by rw [he]; rfl⟩

theorem exec_lut_of_error {z : Bool} {j : Nat} {c : FaultCode} (hf : s.fault = .noFault)
    (hs : s.stage = .indexed z j) (he : tabRead s j = .error c) :
    exec .lut s = .next { s with fault := c } := by
  simp [exec, execLut, hs, he, guarded_enabled hf, Except.map, raise_of_noFault c hf]

theorem exec_mux {z : Bool} {e : Duty} (hf : s.fault = .noFault) (hs : s.stage = .looked z e) :
    exec .mux s = .next { s with stage := .folded (muxOf z e) } := by
  simp only [exec, execMux, hs]
  exact guarded_enabled hf rfl

theorem exec_setd_of_le {d : Duty} (hf : s.fault = .noFault) (hs : s.stage = .folded d)
    (hd : d ≤ s.cfg.maxDuty) :
    exec .setd s = .next { s with duty := d, out := s.out ++ [d], stage := .idle } := by
  simp only [exec, execSetd, hs]
  exact guarded_eq_next.mpr ⟨hf, rfl, setDuty_eq_next.mpr ⟨hd, rfl⟩⟩

/-! ### Runs -/

theorem execAll_cons_of_next {i : Instr} (h : exec i s = .next u) : execAll (i :: l) s = execAll l u := by
  simp [execAll, h]

/-- A run operation by operation, from the state it begins in. -/
theorem execAll_cons {i : Instr} {r : Result} (h : exec i s = .next u) (hrest : execAll l u = r) :
    execAll (i :: l) s = r :=
  (execAll_cons_of_next h).trans hrest

theorem execAll_append_of_next (h : execAll l s = .next u) : execAll (l ++ m) s = execAll m u := by
  induction l generalizing s with
  | nil => rw [Host.Outcome.next.inj h, List.nil_append]
  | cons i l ih =>
    obtain ⟨v, hv, hrest⟩ := execAll_cons_eq_next.mp h
    rw [List.cons_append, execAll_cons_of_next hv, ih hrest]

/-- A run that leads to a state without a fault began in one (R126). -/
theorem noFault_of_execAll (h : execAll l s = .next t) (ht : t.fault = .noFault) : s.fault = .noFault := by
  cases l with
  | nil => exact Host.Outcome.next.inj h ▸ ht
  | cons i l =>
    obtain ⟨u, hu, -⟩ := execAll_cons_eq_next.mp h
    exact exec_next_noFault hu

/-- A run whose first operation raises a fault leads to no state without one. -/
theorem execAll_ne_next_of_raise {i : Instr} {c : FaultCode} (h : exec i s = .next { s with fault := c })
    (hc : c ≠ .noFault) (ht : t.fault = .noFault) : execAll (i :: l) s ≠ .next t := by
  rw [execAll_cons_of_next h]
  exact fun hrun => hc (noFault_of_execAll hrun ht)

/-- Armed events set the flag once, however many they are (R103). -/
theorem execAll_replicate_uev (hf : s.fault = .noFault) (hu : s.uie = true) (k : Nat) :
    execAll (List.replicate (k + 1) .uev) s = .next { s with uif := true } := by
  rw [List.replicate_succ, execAll_cons_of_next (exec_uev_of_armed hf hu)]
  refine execAll_replicate_of_fixed ?_ k
  exact exec_uev_of_pending hf rfl

/-- FOLD's stages lead where FOLD leads, for a phase value in range and short of a fault: LUT reads the entry
that FOLD reads (R105). -/
theorem execAll_stages_eq_next_iff (hf : s.fault = .noFault) (hs : s.stage = .acked i)
    (hi : i < 4 * s.cfg.n) (ht : t.fault = .noFault) :
    execAll (.quad :: .idx :: .lut :: .mux :: l) s = .next t ↔ execAll (.fold :: l) s = .next t := by
  have hdecoded : execAll (.quad :: .idx :: .lut :: .mux :: l) s = execAll (.lut :: .mux :: l)
      { s with stage := .indexed (zeroOf s.cfg.n i) (indexOf s.cfg.n i (quadOf s.cfg.n i)) } :=
    execAll_cons (exec_quad hf hs) (execAll_cons_of_next (exec_idx (sel := selectOf s.cfg.n i) hf rfl))
  have hfold := foldStaged_of_lt hi
  rw [hdecoded]
  cases hr : tabRead s (indexOf s.cfg.n i (quadOf s.cfg.n i)) with
  | ok e =>
    rw [hr] at hfold
    rw [execAll_cons_of_next (exec_fold_of_ok hf hs hfold)]
    refine Eq.congr_left (execAll_cons (exec_lut_of_ok hf rfl hr) ?_)
    exact execAll_cons_of_next (exec_mux hf rfl)
  | error c =>
    obtain rfl := tabRead_error hr
    rw [hr] at hfold
    exact iff_of_false (execAll_ne_next_of_raise (exec_lut_of_error hf rfl hr) nofun ht)
      (execAll_ne_next_of_raise (exec_fold_of_error hf hs hfold) nofun ht)

/-- After ADV and ACK, FOLD may be performed as its stages: ADV has handed on a phase value in range (R97). -/
theorem execAll_adv_ack_stages_eq_next_iff (ht : t.fault = .noFault) :
    execAll (.adv :: .ack :: .quad :: .idx :: .lut :: .mux :: l) s = .next t ↔
      execAll (.adv :: .ack :: .fold :: l) s = .next t := by
  simp only [execAll_cons_eq_next (i := .adv), execAll_cons_eq_next (i := .ack)]
  refine exists_congr fun a => and_congr_right fun ha => exists_congr fun b => and_congr_right fun hb => ?_
  have haf := exec_next_noFault hb
  obtain ⟨-, ⟨hp, rfl⟩ | ⟨-, rfl⟩⟩ := exec_adv_next ha
  · obtain ⟨i, hi, rfl⟩ := exec_ack_next hb
    obtain rfl := Stage.advanced.inj hi
    exact execAll_stages_eq_next_iff haf rfl hp ht
  · exact nomatch haf

theorem execAll_fold_setd {d : Duty} (hf : s.fault = .noFault) (hs : s.stage = .acked i)
    (hd : foldStaged s i = .ok d) (hle : d ≤ s.cfg.maxDuty) :
    execAll [.fold, .setd] s = .next { s with duty := d, out := s.out ++ [d], stage := .idle } :=
  execAll_cons (exec_fold_of_ok hf hs hd) (execAll_cons_of_next (exec_setd_of_le hf rfl hle))

/-- What the sub-operations after the claim have done when they lead to a state without a fault (R104). -/
theorem execAll_unclaimed_eq_next_iff (ht : t.fault = .noFault) :
    execAll [.adv, .ack, .fold, .setd] s = .next t ↔ s.fault = .noFault ∧ advEnabled s = true ∧
      s.phase < 4 * s.cfg.n ∧ ∃ d, foldStaged s s.phase = .ok d ∧ d ≤ s.cfg.maxDuty ∧ t = { s with
        phase := advancedPhase s.cfg.n s.phase, uif := false, duty := d, out := s.out ++ [d]
        stage := .idle } := by
  constructor
  · intro h
    obtain ⟨a, ha, haf, h⟩ := execAll_cons_noFault h ht
    obtain ⟨hen, ⟨hp, rfl⟩ | ⟨-, rfl⟩⟩ := exec_adv_next ha
    · obtain ⟨b, hb, -, h⟩ := execAll_cons_noFault h ht
      obtain ⟨i, hi, rfl⟩ := exec_ack_next hb
      obtain rfl := Stage.advanced.inj hi
      obtain ⟨c, hc, hcf, h⟩ := execAll_cons_noFault h ht
      obtain ⟨i, hi, ⟨d, hd, rfl⟩ | ⟨-, rfl⟩⟩ := exec_fold_next hc
      · obtain rfl := Stage.acked.inj hi
        obtain ⟨e, he, -, h⟩ := execAll_cons_noFault h ht
        obtain ⟨d', hd', hle, rfl⟩ := exec_setd_next he
        obtain rfl := Stage.folded.inj hd'
        exact ⟨haf, hen, hp, d, hd, hle, (Host.Outcome.next.inj h).symm⟩
      · exact nomatch hcf
    · exact nomatch haf
  · rintro ⟨hf, hen, hp, d, hd, hle, rfl⟩
    exact execAll_cons (exec_adv_of_lt hf hen hp) <| execAll_cons (exec_ack hf rfl) <|
      execAll_fold_setd hf rfl hd hle

/-- The sub-operations in the order of R93 lead where the TICK leads, short of a fault (R104). -/
theorem execAll_tickOps_eq_next_iff (hs : s.stage = .idle) (ht : t.fault = .noFault) :
    execAll (tickOps s.run) s = .next t ↔ exec .tick s = .next t := by
  rw [exec_tick_eq_next_iff ht]
  cases hrun : s.run with
  | true =>
    have hadv : advEnabled s = tickEnabled s := by simp [advEnabled, hs, hrun]
    simp [tickOps, execAll_unclaimed_eq_next_iff ht, claimIfNeeded_eq_ok, hrun, hadv, hs]
  | false =>
    constructor
    · intro h
      obtain ⟨a, ha, haf, h⟩ := execAll_cons_noFault h ht
      obtain ⟨hen, ⟨T, -, hT, hp, rfl⟩ | ⟨-, rfl⟩⟩ := exec_claim_next ha
      · obtain ⟨hf, -, hlt, d, hd, hle, rfl⟩ := (execAll_unclaimed_eq_next_iff ht).mp h
        refine ⟨hf, hen, _, d, claimIfNeeded_eq_ok.mpr (.inr ⟨hrun, T, hT, hp, rfl⟩), hlt, hd, hle, ?_⟩
        rw [hs]
      · exact nomatch haf
    · rintro ⟨hf, hen, u, d, hu, hlt, hd, hle, rfl⟩
      obtain ⟨hclaimed, -⟩ | ⟨-, T, hT, hp, rfl⟩ := claimIfNeeded_eq_ok.mp hu
      · exact nomatch hrun.symm.trans hclaimed
      · refine execAll_cons (exec_claim_of_ok hf hen hrun (claimSlots_eq_ok.mpr ⟨T, hT, hp, rfl⟩)) ?_
        exact (execAll_unclaimed_eq_next_iff ht).mpr ⟨hf, rfl, hlt, d, hd, hle, by rw [hs]⟩

/-- In either run of a TICK's sub-operations FOLD may be performed as its stages (R105, R106). -/
theorem execAll_tickStageOps_eq_next_iff (run : Bool) (ht : t.fault = .noFault) :
    execAll (tickStageOps run) s = .next t ↔ execAll (tickOps run) s = .next t := by
  cases run with
  | true => exact execAll_adv_ack_stages_eq_next_iff ht
  | false =>
    refine execAll_cons_eq_next.trans (.trans ?_ execAll_cons_eq_next.symm)
    exact exists_congr fun u => and_congr_right fun _ => execAll_adv_ack_stages_eq_next_iff ht

end

/-- Settles O26: the events leave the flag set, the one TICK clears it. -/
theorem pendingEventsAreNotCounted : Obligations.PendingEventsAreNotCounted := by
  unfold Obligations.PendingEventsAreNotCounted
  intro s m hf hs hu hrun hp hlen hle
  have htick := tickWritesFoldedDuty { s with uif := true } hf hs rfl hu hrun hp hlen hle
  have hlast : execAll (List.replicate (m + 1) .uev ++ [.tick]) s = _ :=
    (execAll_append_of_next (execAll_replicate_uev hf hu m)).trans (execAll_cons_of_next htick)
  obtain ⟨-, hrefused⟩ := (tickNeedsArmedEvent { s with uif := true } hf).2 _ htick hf
  exact ⟨_, hlast, rfl, rfl, List.length_append, hrefused⟩

/-- Settles O35: both split forms by the sub-operations' own rules. -/
theorem splitTickRefinesTick : Obligations.SplitTickRefinesTick := by
  unfold Obligations.SplitTickRefinesTick
  intro s t hs ht
  have hsplit := (execAll_tickOps_eq_next_iff hs ht).symm
  exact ⟨hsplit, hsplit.trans (execAll_tickStageOps_eq_next_iff s.run ht).symm⟩

/-- Settles O36: before the ACK the flag is still set, so the event changes nothing; after it no sub-operation
reads or writes the flag. -/
theorem eventInsideInvocation : Obligations.EventInsideInvocation := by
  unfold Obligations.EventInsideInvocation
  intro s t hs hrun h ht
  obtain ⟨-, hi, hu⟩ := tickEnabled_iff.mp (exec_tick_next h).1
  have hsplit := (execAll_tickOps_eq_next_iff hs ht).mpr h
  rw [hrun] at hsplit
  obtain ⟨hf, hen, hp, d, hd, hle, rfl⟩ := (execAll_unclaimed_eq_next_iff ht).mp hsplit
  have hadv := exec_adv_of_lt hf hen hp
  refine ⟨execAll_cons hadv ?_, execAll_cons hadv ?_, execAll_cons hadv ?_,
    tickEnabled_iff.mpr ⟨rfl, rfl, hu⟩⟩
  · exact execAll_cons (exec_uev_of_pending hf hi) <| execAll_cons (exec_ack hf rfl) <|
      execAll_fold_setd hf rfl hd hle
  · exact execAll_cons (exec_ack hf rfl) <| execAll_cons (exec_uev_of_armed hf hu) <|
      execAll_fold_setd hf rfl hd hle
  · exact execAll_cons (exec_ack hf rfl) <| execAll_cons (exec_fold_of_ok hf rfl hd) <|
      execAll_cons (exec_uev_of_armed hf hu) <| execAll_cons_of_next (exec_setd_of_le hf rfl hle)

end Sys2Proof.Machine
end

section
/-! The table index of a phase value (R109, R110, R120), and the fold as a function of that index alone
(R105, R106, R114, R117, R118): where the index is 0 the fold is 0, elsewhere it is the entry at the index. -/

namespace Sys2Proof.Machine

section
variable {n i k : Nat} {T : QuarterTable}

/-- IDX after QUAD is one triangle per half period: the quadrants' own expressions of R109, of which the
rising one is the smaller up to its peak and the falling one after it. -/
theorem indexOf_quadOf_eq (h : i < 4 * n) :
    indexOf n i (quadOf n i) = max (min i (2 * n - i)) (min (i - 2 * n) (4 * n - i)) := by
  unfold quadOf
  split_ifs <;> simp only [indexOf]
  · omega
  all_goals
    rw [if_pos (by omega)]
    omega

theorem indexOf_quadOf_eq_zero_iff (h : i < 4 * n) :
    indexOf n i (quadOf n i) = 0 ↔ i = 0 ∨ i = 2 * n := by
  rw [indexOf_quadOf_eq h]
  omega

theorem indexOf_quadOf_eq_self_iff (h : i < 4 * n) :
    indexOf n i (quadOf n i) = n ↔ i = n ∨ i = 3 * n := by
  rw [indexOf_quadOf_eq h]
  omega

/-- The position within the half period. -/
theorem mod_two_mul_cases (h : i < 4 * n) :
    (i < 2 * n ∧ i % (2 * n) = i) ∨ (2 * n ≤ i ∧ i % (2 * n) = i - 2 * n) := by
  rcases Nat.lt_or_ge i (2 * n) with hlt | hge
  · exact .inl ⟨hlt, Nat.mod_eq_of_lt hlt⟩
  · exact .inr ⟨hge, by rw [Nat.mod_eq_sub_mod hge, Nat.mod_eq_of_lt (by omega)]⟩

/-- The closed form of R110. -/
theorem indexOf_quadOf_eq_sub_abs (h : i < 4 * n) :
    (indexOf n i (quadOf n i) : ℤ) = (n : ℤ) - |(n : ℤ) - ((i % (2 * n) : ℕ) : ℤ)| := by
  rw [indexOf_quadOf_eq h, Int.abs_eq_natAbs]
  obtain ⟨hlt, hmod⟩ | ⟨hge, hmod⟩ := mod_two_mul_cases h <;> rw [hmod] <;> omega

theorem zeroOf_eq_decide_index (h : i < 4 * n) :
    zeroOf n i = decide (indexOf n i (quadOf n i) = 0) :=
  decide_eq_decide.mpr (indexOf_quadOf_eq_zero_iff h).symm

/-- Phase values with one index have one duty, whatever the table holds at index 0 (R117, R118). -/
theorem fold_eq_of_index_eq (hi : i < 4 * n) (hk : k < 4 * n)
    (h : indexOf n i (quadOf n i) = indexOf n k (quadOf n k)) : fold n T i = fold n T k := by
  rw [fold_eq_muxOf hi, fold_eq_muxOf hk, zeroOf_eq_decide_index hi, zeroOf_eq_decide_index hk, h]

/-- The two cases of the forced zero (R105). -/
theorem fold_of_zero_crossing (h : i = 0 ∨ i = 2 * n) : fold n T i = 0 := if_pos h

/-- Elsewhere the fold is the entry at the index. -/
theorem fold_of_not_zero_crossing (hi : i < 4 * n) (h : ¬(i = 0 ∨ i = 2 * n)) :
    fold n T i = T.getD (indexOf n i (quadOf n i)) 0 := by
  simp [fold_eq_muxOf hi, zeroOf, h, muxOf]

/-- For a table whose entry 0 is 0 the forced zero is redundant (R114). -/
theorem fold_eq_getD_index (hi : i < 4 * n) (h0 : T[0]? = some 0) :
    fold n T i = T.getD (indexOf n i (quadOf n i)) 0 := by
  by_cases hz : i = 0 ∨ i = 2 * n
  · rw [fold_of_zero_crossing hz, (indexOf_quadOf_eq_zero_iff hi).mpr hz, List.getD_eq_getElem?_getD, h0]
    rfl
  · exact fold_of_not_zero_crossing hi hz

/-- Away from the zero crossings a table of `N + 1` entries has the entry that the fold names (R120). -/
theorem getElem?_index_eq_some_fold (hlen : T.length = n + 1) (hi : i < 4 * n) (h : ¬(i = 0 ∨ i = 2 * n))
    (hk : indexOf n i (quadOf n i) = k) : T[k]? = some (fold n T i) := by
  have hle := indexOf_quadOf_le hi
  rw [fold_of_not_zero_crossing hi h, hk, List.getD_eq_getElem _ _ (by omega)]
  exact List.getElem?_eq_getElem _

/-- The five cases of R105 on a table of `N + 1` entries. -/
theorem fold_fiveCases (hlen : T.length = n + 1) (hi : i < 4 * n) :
    (i = 0 ∨ i = 2 * n → fold n T i = 0) ∧
    (0 < i ∧ i < n → T[i]? = some (fold n T i)) ∧
    (n ≤ i ∧ i < 2 * n → T[2 * n - i]? = some (fold n T i)) ∧
    (2 * n < i ∧ i < 3 * n → T[i - 2 * n]? = some (fold n T i)) ∧
    (3 * n ≤ i ∧ i < 4 * n → T[4 * n - i]? = some (fold n T i)) := by
  refine ⟨fold_of_zero_crossing, ?_, ?_, ?_, ?_⟩
  all_goals
    rintro ⟨hlo, hhi⟩
    refine getElem?_index_eq_some_fold hlen hi (by omega) ?_
    rw [indexOf_quadOf_eq hi]
    omega

end

/-- Settles O38: LUT reads the entry that the fold names, and MUX forces the two zeros. -/
theorem stagedFoldIsFold : Obligations.StagedFoldIsFold := by
  unfold Obligations.StagedFoldIsFold
  exact fun _ _ hlen hi => foldStaged_eq_fold hlen hi

/-- Settles O20: the running TICK writes the fold of its phase value, whose five cases are R105's. -/
theorem tickDutyByFiveCases : Obligations.TickDutyByFiveCases := by
  unfold Obligations.TickDutyByFiveCases
  refine ⟨rfl, fun s hf hs hi hu hrun hp hlen hle => ?_⟩
  have htick := tickWritesFoldedDuty s hf hs hi hu hrun hp hlen hle
  exact ⟨_, _, htick, rfl, rfl, hf, rfl, fold_fiveCases hlen hp⟩

/-- Settles O30: FOLD hands on the fold of its phase value, and a free value beyond the range. -/
theorem foldByFiveCases : Obligations.FoldByFiveCases := by
  unfold Obligations.FoldByFiveCases
  refine ⟨rfl, fun s i hf hs => ⟨fun hi hlen => ?_, fun hi => ?_⟩⟩
  · exact ⟨_, exec_fold_of_ok hf hs (foldStaged_eq_fold hlen hi), fold_fiveCases hlen hi⟩
  · exact ⟨_, exec_fold_of_ok hf hs (foldStaged_of_le hi)⟩

/-- Settles O39: each part by the index's four cases. -/
theorem indexRangeAndClosedForm : Obligations.IndexRangeAndClosedForm := by
  unfold Obligations.IndexRangeAndClosedForm
  intro n i hi
  refine ⟨indexOf_quadOf_le hi, indexOf_quadOf_eq_self_iff hi, indexOf_quadOf_eq_zero_iff hi,
    indexOf_quadOf_eq_sub_abs hi, ?_, fun T => fold_eq_getD_index hi⟩
  rw [zeroOf, decide_eq_true_iff]
  obtain ⟨hlt, hmod⟩ | ⟨hge, hmod⟩ := mod_two_mul_cases hi <;> rw [hmod] <;> omega

/-- Settles O40: phase values that mirror each other, or lie half a period apart, have one index. -/
theorem foldSymmetries : Obligations.FoldSymmetries := by
  unfold Obligations.FoldSymmetries
  intro n T
  refine ⟨fold_of_zero_crossing (.inl rfl), fold_of_zero_crossing (.inr rfl), fun i h0 hi => ?mirror,
    fun i hi => ?halfPeriod⟩
  case mirror =>
    refine fold_eq_of_index_eq hi (by omega) ?_
    rw [indexOf_quadOf_eq hi, indexOf_quadOf_eq (by omega)]
    omega
  case halfPeriod =>
    refine fold_eq_of_index_eq (by omega) (by omega) ?_
    rw [indexOf_quadOf_eq (by omega), indexOf_quadOf_eq (by omega)]
    omega

end Sys2Proof.Machine
end

section
/-! The wave over a whole period: its shape on a well-formed configuration's table (R119), and the sequence
of its duties (R122). -/

namespace Sys2Proof

/-- The entries of a well-formed configuration's table do not decrease (R78 (c)). -/
theorem Config.table_getD_le {c : Config} (h : c.wf = true) {j k : Nat} (hjk : j ≤ k) (hk : k ≤ c.n) :
    c.table.getD j 0 ≤ c.table.getD k 0 := by
  obtain ⟨-, hlen, -, -, hchain⟩ := c.wf_iff.mp h
  rw [List.getD_eq_getElem _ _ (by omega), List.getD_eq_getElem _ _ (by omega)]
  exact hchain.sortedLE.getElem_le_getElem_of_le hjk

namespace Machine

section
variable {c : Config} {i k : Nat}

/-- The fold of a well-formed configuration's table grows with the index. -/
theorem fold_le_of_index_le (hw : c.wf = true) (hi : i < 4 * c.n) (hk : k < 4 * c.n)
    (h : indexOf c.n i (quadOf c.n i) ≤ indexOf c.n k (quadOf c.n k)) :
    fold c.n c.table i ≤ fold c.n c.table k := by
  obtain ⟨-, -, h0, -, -⟩ := c.wf_iff.mp hw
  rw [fold_eq_getD_index hi h0, fold_eq_getD_index hk h0]
  exact Config.table_getD_le hw h (indexOf_quadOf_le hk)

/-- The peaks of the wave (R119). -/
theorem fold_peak (hw : c.wf = true) (h : i = c.n ∨ i = 3 * c.n) : fold c.n c.table i = c.maxDuty := by
  obtain ⟨⟨hn, -⟩, -, h0, hlast, -⟩ := c.wf_iff.mp hw
  have hi : i < 4 * c.n := by omega
  rw [fold_eq_getD_index hi h0, (indexOf_quadOf_eq_self_iff hi).mpr h, List.getD_eq_getElem?_getD, hlast]
  rfl

end

/-- Settles O41: the fold grows with the index, which rises on the quadrants 0 and 2 and falls on 1 and 3. -/
theorem foldShape : Obligations.FoldShape := by
  unfold Obligations.FoldShape
  intro c hw
  have hn := Config.one_le_n hw
  refine ⟨fun i hi => ?zeros, fold_peak hw (.inl rfl), fold_peak hw (.inr rfl), ?_, ?_, ?_, ?_,
    fun i hi => fold_le hi (Config.table_le_maxDuty hw)⟩
  case zeros =>
    rw [← or_assoc]
    by_cases hz : i = 0 ∨ i = 2 * c.n
    · exact iff_of_true (fold_of_zero_crossing hz) (.inl hz)
    · rw [fold_of_not_zero_crossing hi hz, or_iff_right hz]
  all_goals
    intros
    refine fold_le_of_index_le hw (by omega) (by omega) ?_
    rw [indexOf_quadOf_eq (by omega), indexOf_quadOf_eq (by omega)]
    omega

/-- The duties of the first half period, entry by entry (R122). -/
theorem map_fold_range_two_mul {n : Nat} {T : QuarterTable} (hn : 1 ≤ n) (hlen : T.length = n + 1) :
    (List.range (2 * n)).map (fold n T) = halfPeriod T := by
  refine List.ext_getElem (by simp [halfPeriod]; omega) fun i hi _ => ?_
  rw [List.length_map, List.length_range] at hi
  rw [List.getElem_map, List.getElem_range]
  cases i with
  | zero => exact fold_of_zero_crossing (.inl rfl)
  | succ i =>
    have hentry {j : Nat} (hj : indexOf n (i + 1) (quadOf n (i + 1)) = j) : T[j]? = _ :=
      getElem?_index_eq_some_fold hlen (by omega) (by omega) hj
    rw [indexOf_quadOf_eq (by omega)] at hentry
    simp only [halfPeriod, List.getElem_cons_succ, List.getElem_append, List.getElem_reverse,
      List.getElem_dropLast, List.getElem_drop, List.length_dropLast, List.length_drop]
    split
    all_goals
      refine ((List.getElem_eq_iff _).mpr (hentry ?_)).symm
      omega

/-- Settles O42: the period is two half periods of `2N` duties, equal by R118. -/
theorem fullPeriodIsTwoHalves : Obligations.FullPeriodIsTwoHalves := by
  unfold Obligations.FullPeriodIsTwoHalves
  intro n T hn hlen
  obtain ⟨-, -, -, hrepeat⟩ := foldSymmetries n T
  have hsecond : (List.range (2 * n)).map (fold n T ∘ (2 * n + ·)) = (List.range (2 * n)).map (fold n T) :=
    List.map_congr_left fun i hi => by
      rw [Function.comp_apply, Nat.add_comm, hrepeat i (List.mem_range.mp hi)]
  rw [show 4 * n = 2 * n + 2 * n by omega, List.range_add, List.map_append, List.map_map, hsecond,
    map_fold_range_two_mul hn hlen]

end Machine
end Sys2Proof
end

section
/-! The driver's arithmetic in unsigned words of any width that holds `4N` (R121): on the values up to `4N`
`BitVec.ofNat` keeps order, equality and the subtractions of R109. -/

namespace Sys2Proof.Machine

section
variable {w n i j k : Nat}

theorem toNat_ofNat_of_le (hw : 4 * n < 2 ^ w) (hk : k ≤ 4 * n) : (BitVec.ofNat w k).toNat = k :=
  (BitVec.toNat_ofNat _ _).trans (Nat.mod_eq_of_lt (by omega))

theorem ofNat_lt_ofNat_iff (hw : 4 * n < 2 ^ w) (hj : j ≤ 4 * n) (hk : k ≤ 4 * n) :
    BitVec.ofNat w j < BitVec.ofNat w k ↔ j < k := by
  rw [BitVec.lt_def, toNat_ofNat_of_le hw hj, toNat_ofNat_of_le hw hk]

theorem ofNat_eq_ofNat_iff (hw : 4 * n < 2 ^ w) (hj : j ≤ 4 * n) (hk : k ≤ 4 * n) :
    BitVec.ofNat w j = BitVec.ofNat w k ↔ j = k := by
  rw [← BitVec.toNat_inj, toNat_ofNat_of_le hw hj, toNat_ofNat_of_le hw hk]

theorem toNat_ofNat_sub_ofNat (hw : 4 * n < 2 ^ w) (hj : j ≤ k) (hk : k ≤ 4 * n) :
    (BitVec.ofNat w k - BitVec.ofNat w j).toNat = k - j := by
  have hjk : BitVec.ofNat w j ≤ BitVec.ofNat w k := by
    rwa [BitVec.le_def, toNat_ofNat_of_le hw (hj.trans hk), toNat_ofNat_of_le hw hk]
  rw [BitVec.toNat_sub_of_le hjk, toNat_ofNat_of_le hw (hj.trans hk), toNat_ofNat_of_le hw hk]

theorem advancedPhaseBits_ofNat (hw : 4 * n < 2 ^ w) (hi : i < 4 * n) :
    advancedPhaseBits n (BitVec.ofNat w i) = BitVec.ofNat w (advancedPhase n i) := by
  have hsucc : BitVec.ofNat w i + 1 = BitVec.ofNat w (i + 1) := (BitVec.ofNat_add i 1).symm
  simp only [advancedPhaseBits, advancedPhase, hsucc, ofNat_eq_ofNat_iff hw hi le_rfl]
  split <;> rfl

theorem quadBits_ofNat (hw : 4 * n < 2 ^ w) (hi : i < 4 * n) :
    quadBits n (BitVec.ofNat w i) = quadOf n i := by
  have hlt {k : Nat} (hk : k ≤ 4 * n) := ofNat_lt_ofNat_iff hw hi.le hk
  simp only [quadBits, quadOf, hlt (k := n) (by omega), hlt (k := 2 * n) (by omega),
    hlt (k := 3 * n) (by omega)]

theorem zeroBits_ofNat (hw : 4 * n < 2 ^ w) (hi : i < 4 * n) :
    zeroBits n (BitVec.ofNat w i) = zeroOf n i :=
  decide_eq_decide.mpr (or_congr (ofNat_eq_ofNat_iff hw hi.le (Nat.zero_le _))
    (ofNat_eq_ofNat_iff hw hi.le (by omega)))

theorem toNat_indexBits_ofNat (hw : 4 * n < 2 ^ w) (hi : i < 4 * n) :
    (indexBits n (BitVec.ofNat w i) (quadOf n i)).toNat = indexOf n i (quadOf n i) := by
  unfold quadOf
  split_ifs <;> simp only [indexBits, indexOf]
  · exact toNat_ofNat_of_le hw hi.le
  all_goals
    rw [if_pos (by omega)]
    exact toNat_ofNat_sub_ofNat hw (by omega) (by omega)

end

/-- Settles O46: every value compared or subtracted is at most `4N`, so the word keeps it. -/
theorem widthIndependence : Obligations.WidthIndependence := by
  unfold Obligations.WidthIndependence
  intro w n i hw hi
  have hstored : advancedPhase n i ≤ 4 * n :=
    (advancedPhase_of_lt hi).trans_le ((Nat.mod_le _ _).trans hi)
  refine ⟨?_, ?_, quadBits_ofNat hw hi, zeroBits_ofNat hw hi, ?_, toNat_indexBits_ofNat hw hi⟩
  · rw [advancedPhaseBits_ofNat hw hi, toNat_ofNat_of_le hw hstored]
  · rw [BitVec.not_le]
    exact (ofNat_lt_ofNat_iff hw hi.le le_rfl).mpr hi
  · rw [selectBits, selectOf, zeroBits_ofNat hw hi, quadBits_ofNat hw hi]

end Sys2Proof.Machine
end

section
/-! QUAD, IDX, LUT, MUX and SETD as steps of their own (R104, R107, R109, R111, R113, R115). -/

namespace Sys2Proof.Machine

/-- A duty above `MAX_DUTY` is refused (U21, log 11). -/
theorem exec_setd_of_gt {s : State} {d : Duty} (hf : s.fault = .noFault) (hs : s.stage = .folded d)
    (hd : s.cfg.maxDuty < d) : exec .setd s = .refused (.dutyRange d) := by
  simp only [exec, execSetd, hs]
  rw [guarded_enabled hf rfl]
  exact if_neg (Nat.not_le.mpr hd)

/-- Settles O31: QUAD's pseudocode is the model's, and IDX subtracts as the quadrant it is handed says. -/
theorem quadThenIndex : Obligations.QuadThenIndex := by
  unfold Obligations.QuadThenIndex
  refine ⟨rfl, rfl, fun s i sel hf => ⟨?quad, fun hs => ⟨_, exec_idx hf hs, ?q0, ?q1, ?q2, ?q3⟩⟩⟩
  case quad =>
    rintro z q rfl rfl hs
    exact exec_quad hf hs
  case q0 =>
    intro hq
    rw [hq, indexOf]
  all_goals
    intro hq hle
    rw [hq, indexOf, if_pos hle]
    omega

/-- Settles O32: an index up to `N` names an entry of `TAB`, an index above `N` none. -/
theorem lookupThenMux : Obligations.LookupThenMux := by
  unfold Obligations.LookupThenMux
  refine ⟨rfl, rfl, fun s z j e hf => ⟨fun hs hlen hj => ?_, fun hs hj => ?_, exec_mux hf⟩⟩
  · have hlt : j < s.tab.length := by omega
    rw [List.getD_eq_getElem _ _ hlt]
    exact exec_lut_of_ok hf hs (tabRead_eq_ok.mpr ⟨hj, List.getElem?_eq_getElem hlt⟩)
  · exact exec_lut_of_error hf hs (tabRead_of_gt hj)

/-- Settles O33: SETD where FOLD has handed it a duty, in range or above it. -/
theorem setDutyWritesAndEmits : Obligations.SetDutyWritesAndEmits := by
  unfold Obligations.SetDutyWritesAndEmits
  exact ⟨rfl, fun _ _ hf hs => ⟨exec_setd_of_le hf hs, exec_setd_of_gt hf hs⟩⟩

end Sys2Proof.Machine
end

section
/-! Which configurations have runs (R78, R131, log 5). -/

namespace Sys2Proof

/-- "non-decreasing" (R78 (c)) is neighbour by neighbour, for a table of `N + 1` entries. -/
theorem isChain_le_iff_getD {l : List Nat} {n : Nat} (hlen : l.length = n + 1) :
    l.IsChain (· ≤ ·) ↔ ∀ j, j < n → l.getD j 0 ≤ l.getD (j + 1) 0 := by
  rw [List.isChain_iff_getElem]
  refine forall_congr' fun j => ⟨fun h hj => ?_, fun h hj => ?_⟩
  · rw [List.getD_eq_getElem _ _ (by omega), List.getD_eq_getElem _ _ (by omega)]
    exact h (by omega)
  · have hle := h (by omega)
    rwa [List.getD_eq_getElem _ _ (by omega), List.getD_eq_getElem _ _ (by omega)] at hle

/-- Settles O6: the check of the table's order is made neighbour by neighbour, and the bound on the entries
follows from the other checks. -/
theorem configurationRefusedIffInvalid : Obligations.ConfigurationRefusedIffInvalid := by
  unfold Obligations.ConfigurationRefusedIffInvalid
  refine fun c => ⟨fun h => ?_, fun ⟨hn, hmax, hw, hlen, hfirst, hlast, hmono, _⟩ => ?_⟩
  · obtain ⟨⟨hn, hmax, hw⟩, hlen, hfirst, hlast, hchain⟩ := c.wf_iff.mp h
    exact ⟨hn, hmax, hw, hlen, hfirst, hlast, (isChain_le_iff_getD hlen).mp hchain, c.table_le_maxDuty h⟩
  · exact c.wf_iff.mpr ⟨⟨hn, hmax, hw⟩, hlen, hfirst, hlast, (isChain_le_iff_getD hlen).mpr hmono⟩

end Sys2Proof
end

section
/-! The faults: which operation raises which code and on which cause (R125, R126, R129), and the order of a
TICK's checks (R137). -/

namespace Sys2Proof.Machine

section
variable {i : Instr} {s t u : State} {c : FaultCode}

/-- Operation `i` raises `c` in the state `s`: the operations of each code and its cause (R125, log 12). -/
def Raises (i : Instr) (s : State) : FaultCode → Prop
  | .noFault => False
  | .slotEmpty => (i = .claim ∨ i = .tick ∧ s.run = false) ∧ bothFull s = false
  | .slotRewrite => i = .build ∧ s.tslot ≠ .empty0 ∨ i = .putp ∧ s.pslot ≠ .empty0
  | .owner => (i = .getmax ∨ i = .enable ∨ i = .listen) ∧ s.run = true
  | .phaseRange => (i = .adv ∨ i = .tick) ∧ 4 * s.cfg.n ≤ s.phase
  | .indexRange =>
    (i = .lut ∧ ∃ z j, s.stage = .indexed z j ∧ entryMissing s j) ∨
    (i = .fold ∧ ∃ p, s.stage = .acked p ∧ entryMissing s (indexOf s.cfg.n p (quadOf s.cfg.n p))) ∨
    (i = .tick ∧ ∃ u, claimIfNeeded s = .ok u ∧
      entryMissing u (indexOf s.cfg.n s.phase (quadOf s.cfg.n s.phase)))

/-- The fault of a TICK's invocation has its cause in the state the TICK began in (R93, R137). -/
theorem raises_tick_of_invocation_error (h : invocation s = .error c) : Raises .tick s c := by
  obtain ⟨rfl, hrun, hslots⟩ | ⟨u, hu, hcause⟩ := invocation_error h
  · exact ⟨.inr ⟨rfl, hrun⟩, hslots⟩
  · obtain ⟨hphase, hcfg⟩ := claimIfNeeded_ok hu
    rw [hphase, hcfg] at hcause
    obtain ⟨rfl, hp⟩ | ⟨rfl, -, hread⟩ := hcause
    · exact ⟨.inr rfl, hp⟩
    · exact .inr (.inr ⟨rfl, u, hu, tabRead_error_cause hread⟩)

/-- A next state either has no fault recorded or is the state before with a fault recorded that the operation
raises there: `raise` writes only `FAULT` (R126). -/
theorem exec_next_raises (h : exec i s = .next t) :
    t.fault = .noFault ∨ ∃ c, Raises i s c ∧ t = faulted s c := by
  have hf := exec_next_noFault h
  cases i with
  | idle => exact .inl ((exec_idle_next h).2 ▸ hf)
  | getmax =>
    obtain ⟨-, ⟨-, rfl⟩ | ⟨hrun, rfl⟩⟩ := exec_getmax_next h
    exacts [.inl hf, .inr ⟨.owner, ⟨.inl rfl, hrun⟩, rfl⟩]
  | build =>
    obtain ⟨-, ⟨-, rfl⟩ | ⟨hslot, rfl⟩⟩ := exec_build_next h
    exacts [.inl hf, .inr ⟨.slotRewrite, .inl ⟨rfl, hslot⟩, rfl⟩]
  | putp =>
    obtain ⟨-, ⟨-, rfl⟩ | ⟨hslot, rfl⟩⟩ := exec_putp_next h
    exacts [.inl hf, .inr ⟨.slotRewrite, .inr ⟨rfl, hslot⟩, rfl⟩]
  | enable =>
    obtain ⟨-, ⟨-, rfl⟩ | ⟨hrun, rfl⟩⟩ := exec_enable_next h
    exacts [.inl hf, .inr ⟨.owner, ⟨.inr (.inl rfl), hrun⟩, rfl⟩]
  | listen =>
    obtain ⟨-, ⟨-, rfl⟩ | ⟨hrun, rfl⟩⟩ := exec_listen_next h
    exacts [.inl hf, .inr ⟨.owner, ⟨.inr (.inr rfl), hrun⟩, rfl⟩]
  | uev => exact .inl (exec_uev_next h ▸ hf)
  | tick =>
    obtain ⟨-, ⟨v, d, hv, -, rfl⟩ | ⟨c, hc, rfl⟩⟩ := exec_tick_next h
    · obtain ⟨u, hu, -, -, rfl⟩ := invocation_eq_ok.mp hv
      exact .inl ((claimIfNeeded_ok_fault hu).trans hf)
    · exact .inr ⟨c, raises_tick_of_invocation_error hc, rfl⟩
  | claim =>
    obtain ⟨-, ⟨T, -, -, -, rfl⟩ | ⟨hslots, rfl⟩⟩ := exec_claim_next h
    exacts [.inl hf, .inr ⟨.slotEmpty, ⟨.inl rfl, hslots⟩, rfl⟩]
  | adv =>
    obtain ⟨-, ⟨-, rfl⟩ | ⟨hp, rfl⟩⟩ := exec_adv_next h
    exacts [.inl hf, .inr ⟨.phaseRange, ⟨.inl rfl, hp⟩, rfl⟩]
  | fold =>
    obtain ⟨p, hs, ⟨d, -, rfl⟩ | ⟨hd, rfl⟩⟩ := exec_fold_next h
    · exact .inl hf
    · have hmissing := tabRead_error_cause (foldStaged_error hd).2
      exact .inr ⟨.indexRange, .inr (.inl ⟨rfl, p, hs, hmissing⟩), rfl⟩
  | lut =>
    obtain ⟨z, j, hs, ⟨e, -, rfl⟩ | ⟨hread, rfl⟩⟩ := exec_lut_next h
    · exact .inl hf
    · exact .inr ⟨.indexRange, .inl ⟨rfl, z, j, hs, tabRead_error_cause hread⟩, rfl⟩
  | ack =>
    obtain ⟨p, -, rfl⟩ := exec_ack_next h
    exact .inl hf
  | quad =>
    obtain ⟨p, -, rfl⟩ := exec_quad_next h
    exact .inl hf
  | idx =>
    obtain ⟨p, sel, -, rfl⟩ := exec_idx_next h
    exact .inl hf
  | mux =>
    obtain ⟨z, e, -, rfl⟩ := exec_mux_next h
    exact .inl hf
  | setd =>
    obtain ⟨d, -, -, rfl⟩ := exec_setd_next h
    exact .inl hf

/-- The code recorded in a next state is one the operation raises. -/
theorem raises_of_next (h : exec i s = .next t) (hc : t.fault = c) (hne : c ≠ .noFault) :
    Raises i s c := by
  subst hc
  obtain hnone | ⟨c, hraises, rfl⟩ := exec_next_raises h
  exacts [absurd hnone hne, hraises]

/-! ### The outcome `fault` -/

theorem guarded_ne_fault {en : Bool} {e : Result} {r : Fault} (hf : s.fault = .noFault)
    (he : e ≠ .fault r) : guarded i en s e ≠ .fault r := by
  cases en
  · exact (guarded_disabled hf rfl).trans_ne nofun
  · exact (guarded_enabled hf rfl).trans_ne he

theorem settle_ne_fault (e : Except FaultCode State) (r : Fault) : settle s e ≠ .fault r := by
  cases e <;> exact nofun

theorem setDuty_ne_fault (d : Duty) (r : Fault) : setDuty d s ≠ .fault r := by
  unfold setDuty
  split <;> exact nofun

/-- With no fault recorded no operation answers the outcome `fault` (log 7). -/
theorem exec_ne_fault (hf : s.fault = .noFault) (i : Instr) (r : Fault) : exec i s ≠ .fault r := by
  cases i with
  | idle | getmax | build | putp | enable | listen | claim | adv =>
    exact guarded_ne_fault hf (settle_ne_fault _ r)
  | uev => exact guarded_ne_fault hf nofun
  | tick =>
    refine guarded_ne_fault hf ?_
    split
    exacts [setDuty_ne_fault _ r, nofun]
  | ack | quad | idx | mux =>
    simp only [exec, execAck, execQuad, execIdx, execMux]
    split <;> exact guarded_ne_fault hf nofun
  | fold | lut =>
    simp only [exec, execFold, execLut]
    split
    exacts [guarded_ne_fault hf (settle_ne_fault _ r), guarded_ne_fault hf nofun]
  | setd =>
    simp only [exec, execSetd]
    split
    exacts [guarded_ne_fault hf (setDuty_ne_fault _ r), guarded_ne_fault hf nofun]

end

/-- Settles O50: a next state with another `FAULT` is one in which a fault was recorded. -/
theorem faultWritesOnlyFaultAndStops : Obligations.FaultWritesOnlyFaultAndStops := by
  unfold Obligations.FaultWritesOnlyFaultAndStops
  refine ⟨fun i s t h hne => ?_, fun i s hf => exec_stopped hf i⟩
  have hf := exec_next_noFault h
  obtain hnone | ⟨c, -, rfl⟩ := exec_next_raises h
  · exact absurd (hnone.trans hf.symm) hne
  · exact ⟨hf, rfl⟩

/-- Settles O51: the five clauses are what `Raises` says of the five codes. -/
theorem faultsOnlyFromTheirRaisers : Obligations.FaultsOnlyFromTheirRaisers := by
  unfold Obligations.FaultsOnlyFromTheirRaisers
  refine ⟨fun i s t h _ => ?_, fun i s r h => ?_⟩
  · have raised {c : FaultCode} (hne : c ≠ .noFault) (hc : t.fault = c) : Raises i s c :=
      raises_of_next h hc hne
    exact ⟨raised nofun, raised nofun, raised nofun, raised nofun, raised nofun⟩
  · have hf : s.fault ≠ .noFault := fun hf => exec_ne_fault hf i r h
    exact ⟨hf, Host.Outcome.fault.inj (h.symm.trans (exec_stopped hf i))⟩

/-! ### The order of a TICK's checks -/

section
variable {s u : State}

/-- After the claim, needed or not, a phase value out of range ends the invocation (R98, R137). -/
theorem invocation_of_phase_ge (hu : claimIfNeeded s = .ok u) (hp : 4 * s.cfg.n ≤ s.phase) :
    invocation s = .error .phaseRange := by
  obtain ⟨hphase, hcfg⟩ := claimIfNeeded_ok hu
  rw [← hphase, ← hcfg] at hp
  simp [invocation, hu, advance, hp]

/-- With the phase value in range the fault of the fold is the invocation's (R93). -/
theorem invocation_of_foldStaged_error {c : FaultCode} (hu : claimIfNeeded s = .ok u)
    (hp : u.phase < 4 * u.cfg.n) (hd : foldStaged u u.phase = .error c) : invocation s = .error c := by
  simp only [invocation, hu, advance_eq_ok.mpr ⟨hp, rfl, rfl⟩]
  rw [foldStaged_congr (s := u) (by rfl) (by rfl), hd]
  rfl

/-- A table read beyond the end of a `TAB` that is too short faults (log 12). -/
theorem tabRead_of_length_le {j : Nat} (h : s.tab.length ≤ j) : tabRead s j = .error .indexRange := by
  cases hr : tabRead s j with
  | ok v =>
    have hentry := (tabRead_eq_ok.mp hr).2
    exact nomatch (List.getElem?_eq_none h).symm.trans hentry
  | error c => rw [tabRead_error hr]

/-- In the first quadrant the fold reads the entry at the phase value, at phase 0 too (R109, log 12). -/
theorem foldStaged_of_length_le {i : Nat} (hi : i < s.cfg.n) (h : s.tab.length ≤ i) :
    foldStaged s i = .error .indexRange := by
  have hindex : indexOf s.cfg.n i (quadOf s.cfg.n i) = i := by simp [quadOf, hi, indexOf]
  rw [foldStaged_of_lt (by omega), hindex, tabRead_of_length_le h]
  rfl

/-- No claim is needed, or both slots are FULL: the claim does not fault (R94). -/
theorem exists_claimIfNeeded_ok (h : s.run = true ∨ bothFull s = true) : ∃ u, claimIfNeeded s = .ok u := by
  cases hrun : s.run with
  | true => exact ⟨s, claimIfNeeded_eq_ok.mpr (.inl ⟨hrun, rfl⟩)⟩
  | false =>
    obtain ⟨⟨T, hT⟩, hp⟩ := bothFull_iff.mp (h.resolve_left (by simp [hrun]))
    exact ⟨_, claimIfNeeded_eq_ok.mpr (.inr ⟨hrun, T, hT, hp, rfl⟩)⟩

end

/-- Settles O23: each clause is one fault of the invocation, which the TICK records. -/
theorem tickChecksInOrder : Obligations.TickChecksInOrder := by
  unfold Obligations.TickChecksInOrder
  intro s hf hs hi hu
  have records {c : FaultCode} (h : invocation s = .error c) : exec .tick s = .next { s with fault := c } :=
    exec_tick_of_error hf (tickEnabled_iff.mpr ⟨hs, hi, hu⟩) h
  refine ⟨fun hrun hslots => records (invocation_of_not_bothFull hrun hslots), fun hclaim hp => ?_,
    fun hrun hp hlen => ?_⟩
  · obtain ⟨u, hu⟩ := exists_claimIfNeeded_ok hclaim
    exact records (invocation_of_phase_ge hu hp)
  · exact records (invocation_of_foldStaged_error (claimIfNeeded_eq_ok.mpr (.inl ⟨hrun, rfl⟩)) (by omega)
      (foldStaged_of_length_le hp hlen))

end Sys2Proof.Machine
end

section
/-! Progress with an empty schedule (R18, R139, log 2): an invocation runs to its end, and an enabled TICK
runs at once. -/

namespace Sys2Proof.Machine

/-- How many sub-operations are still to be performed, when FOLD not yet begun is performed in one piece. -/
def subOpsLeft : Stage → Nat
  | .idle => 0
  | .claimed => 4
  | .advanced _ => 3
  | .acked _ => 2
  | .decoded _ _ => 4
  | .indexed _ _ => 3
  | .looked _ _ => 2
  | .folded _ => 1

theorem subOpsLeft_eq_zero_iff {g : Stage} : subOpsLeft g = 0 ↔ g = .idle := by
  cases g <;> simp [subOpsLeft]

theorem subOpsLeft_le_four (g : Stage) : subOpsLeft g ≤ 4 := by
  cases g <;> simp [subOpsLeft]

section
variable {s t : State}

/-- `t` is one sub-operation further than `s`: no fault is recorded, the schedule is untouched and the duty is
written by the last one only. -/
structure Advances (s t : State) : Prop where
  noFault : t.fault = .noFault
  sched : t.sched = s.sched
  left : subOpsLeft s.stage = subOpsLeft t.stage + 1
  out : t.out.length = s.out.length + if subOpsLeft t.stage = 0 then 1 else 0

/-- A sub-operation before the last has written no duty and no fault. -/
theorem Advances.of_transients (hf : s.fault = .noFault) {p : Nat} {b : Bool} {g g' : Stage}
    (hs : s.stage = g) (hg : g' ≠ .idle) (hleft : subOpsLeft g = subOpsLeft g' + 1) :
    Advances s { s with phase := p, uif := b, stage := g' } :=
  ⟨hf, rfl, hs ▸ hleft, by simp [subOpsLeft_eq_zero_iff, hg]⟩

/-- In a state of the invariant an invocation in progress performs its next sub-operation without a fault
(R130, R139). -/
theorem exists_subOperation_advances (h : StateInv s) (hf : s.fault = .noFault) (hne : s.stage ≠ .idle) :
    ∃ i t, nextSubOperation s.stage = some i ∧ exec i s = .next t ∧ Advances s t := by
  have hpos := h.position
  cases hs : s.stage with
  | idle => exact absurd hs hne
  | claimed =>
    have hadv := exec_adv_of_lt hf (advEnabled_iff.mpr (.inl hs)) h.phase_lt
    exact ⟨.adv, _, rfl, hadv, .of_transients hf hs nofun rfl⟩
  | advanced p => exact ⟨.ack, _, rfl, exec_ack hf hs, .of_transients hf hs nofun rfl⟩
  | acked p =>
    simp only [positionOk, hs] at hpos
    obtain ⟨rfl, -⟩ := hpos
    have hfold := foldStaged_eq_fold h.tabLength (h.mod_lt s.out.length)
    exact ⟨.fold, _, rfl, exec_fold_of_ok hf hs hfold, .of_transients hf hs nofun rfl⟩
  | decoded p sel => exact ⟨.idx, _, rfl, exec_idx hf hs, .of_transients hf hs nofun rfl⟩
  | indexed z j =>
    simp only [positionOk, hs] at hpos
    obtain ⟨-, hj, -⟩ := hpos
    cases hr : tabRead s j with
    | ok e => exact ⟨.lut, _, rfl, exec_lut_of_ok hf hs hr, .of_transients hf hs nofun rfl⟩
    | error c => exact absurd hr (h.tabRead_ne_error (hj ▸ indexOf_quadOf_le (h.mod_lt _)))
  | looked z e => exact ⟨.mux, _, rfl, exec_mux hf hs, .of_transients hf hs nofun rfl⟩
  | folded d =>
    simp only [positionOk, hs] at hpos
    have hle : d ≤ s.cfg.maxDuty := by
      rw [hpos.1, h.claimedTable (h.claimedFirst hne)]
      exact fold_le (h.mod_lt _) (Config.table_le_maxDuty h.config)
    exact ⟨.setd, _, rfl, exec_setd_of_le hf hs hle, hf, rfl, hs ▸ rfl, List.length_append⟩

theorem step_of_unscheduled (hw : s.cfg.wf = true) (hq : s.sched = []) : step s = exec (unscheduledOp s) s :=
  step_of_operation hw (nextOperation_nil s hq)

/-- With nothing scheduled the step inside an invocation is its next sub-operation (R139). -/
theorem step_in_invocation (h : StateInv s) (hf : s.fault = .noFault) (hq : s.sched = [])
    (hne : s.stage ≠ .idle) : ∃ t, step s = .next t ∧ StateInv t ∧ Advances s t := by
  obtain ⟨i, t, hi, ht, hadv⟩ := exists_subOperation_advances h hf hne
  refine ⟨t, ?_, exec_keeps_inv h ht, hadv⟩
  rw [step_of_unscheduled h.config hq, unscheduledOp_of_nextSubOperation hi, ht]

theorem run_succ_of_step (h : step s = .next t) (k : Nat) :
    Host.Core.run Sys2Proof.core (k + 1) s = Host.Core.run Sys2Proof.core k t := by
  have hcore : Sys2Proof.core.step s = .next t := h
  simp only [Host.Core.run, hcore]

/-- An invocation in progress ends after as many steps as it has sub-operations left, with one more duty. -/
theorem run_subOpsLeft {k : Nat} (h : StateInv s) (hf : s.fault = .noFault) (hq : s.sched = [])
    (hk : subOpsLeft s.stage = k + 1) : ∃ t, Host.Core.run Sys2Proof.core (k + 1) s = .next t ∧
      t.stage = .idle ∧ t.out.length = s.out.length + 1 ∧ t.fault = .noFault := by
  have hne : s.stage ≠ .idle := mt subOpsLeft_eq_zero_iff.mpr (by omega)
  induction k generalizing s with
  | zero =>
    obtain ⟨t, ht, -, hadv⟩ := step_in_invocation h hf hq hne
    have hlast : subOpsLeft t.stage = 0 := Nat.succ.inj (hadv.left.symm.trans hk)
    exact ⟨t, run_succ_of_step ht 0, subOpsLeft_eq_zero_iff.mp hlast, by rw [hadv.out, if_pos hlast],
      hadv.noFault⟩
  | succ k ih =>
    obtain ⟨u, hu, hinv, hadv⟩ := step_in_invocation h hf hq hne
    have hleft : subOpsLeft u.stage = k + 1 := Nat.succ.inj (hadv.left.symm.trans hk)
    obtain ⟨t, ht, hidle, hout, htf⟩ := ih hinv hadv.noFault (hadv.sched.trans hq) hleft
      (mt subOpsLeft_eq_zero_iff.mpr (by omega))
    rw [hadv.out, if_neg (by omega), Nat.add_zero] at hout
    exact ⟨t, (run_succ_of_step hu _).trans ht, hidle, hout, htf⟩

end

/-- Settles O60: the number of sub-operations left falls with every step inside the invocation; outside one
the enabled TICK is chosen, which writes its duty by O25. -/
theorem invocationRunsToCompletion : Obligations.InvocationRunsToCompletion := by
  unfold Obligations.InvocationRunsToCompletion
  intro s h hf hq
  refine ⟨fun hs => ?_, fun hen hrun => ?_⟩
  · obtain ⟨k, hk⟩ := Nat.exists_eq_succ_of_ne_zero (mt subOpsLeft_eq_zero_iff.mp hs)
    obtain ⟨t, ht⟩ := run_subOpsLeft h hf hq hk
    exact ⟨k + 1, t, hk.symm.trans_le (subOpsLeft_le_four s.stage), ht⟩
  · obtain ⟨hs, hi, hu⟩ := tickEnabled_iff.mp hen
    obtain ⟨t, ht, htf, hout, -⟩ := runningTickNeverFaults s h hf hen hrun
    refine ⟨t, ?_, by rw [hout, List.length_append]; rfl, htf⟩
    rw [step_of_unscheduled h.config hq, unscheduledOp_of_idle hs, if_pos ⟨hi, hu⟩, ht]

end Sys2Proof.Machine
end

section
/-! Reset (R147), and the start-up programs that raise no fault (R154): of a well-formed program, what is still
to be issued accounts for the two slots and for `UIE`, and every operation of the run keeps that account. -/

namespace Sys2Proof.Machine

theorem Slot.exists_eq_full {α : Type} {S : Slot α} (he : S ≠ .empty0) (ht : S ≠ .taken) : ∃ v, S = .full v := by
  cases S with
  | empty0 => exact absurd rfl he
  | full v => exact ⟨v, rfl⟩
  | taken => exact absurd rfl ht

/-- What STARTUP is still to issue when the machine is in the state `s`: BUILD and PUTP once each while their
slots are EMPTY0, and nothing but IDLE once LISTEN has armed the interrupt (R43, R154). -/
structure StartupLeft (s : State) (p : List Instr) : Prop where
  build : p.count .build = if s.tslot = .empty0 then 1 else 0
  putp : p.count .putp = if s.pslot = .empty0 then 1 else 0
  listen : onlyIdleAfter .listen p = true
  parked : s.uie = true → p.all (· = .idle) = true

/-- At reset the whole program is left (R147, R154). -/
theorem startupLeft_resetWith {p : List Instr} (c : Config) (h : startupWf p = true) :
    StartupLeft (State.resetWith c) p := by
  simp only [startupWf, Bool.and_eq_true, decide_eq_true_eq] at h
  obtain ⟨⟨⟨⟨⟨⟨⟨⟨⟨-, hbuild⟩, hputp⟩, -⟩, -⟩, -⟩, -⟩, -⟩, -⟩, hlisten⟩ := h
  exact { build := hbuild, putp := hputp, listen := hlisten, parked := nofun }

namespace StartupLeft

variable {i : Instr} {l p : List Instr} {s t : State}

theorem listen_tail (h : StartupLeft s (i :: p)) : onlyIdleAfter .listen p = true :=
  (Bool.and_eq_true_iff.mp h.listen).2

theorem parked_tail (h : StartupLeft s (i :: p)) (hu : s.uie = true) : p.all (· = .idle) = true :=
  (Bool.and_eq_true_iff.mp (h.parked hu)).2

/-- An operation that fills no slot is taken off what is left. -/
theorem tail (h : StartupLeft s (i :: p)) (hb : i ≠ .build) (hp : i ≠ .putp) : StartupLeft s p where
  build := List.count_cons_of_ne hb ▸ h.build
  putp := List.count_cons_of_ne hp ▸ h.putp
  listen := h.listen_tail
  parked := h.parked_tail

/-- BUILD fills its slot and is not left any more (R43). -/
theorem fill_tslot (h : StartupLeft s (.build :: p)) (he : s.tslot = .empty0) (T : QuarterTable) :
    StartupLeft { s with tslot := .full T } p where
  build := by simpa [he] using h.build
  putp := by simpa using h.putp
  listen := h.listen_tail
  parked := h.parked_tail

/-- PUTP fills its slot and is not left any more (R43). -/
theorem fill_pslot (h : StartupLeft s (.putp :: p)) (he : s.pslot = .empty0) :
    StartupLeft { s with pslot := .full PwmHandle.mk } p where
  build := by simpa using h.build
  putp := by simpa [he] using h.putp
  listen := h.listen_tail
  parked := h.parked_tail

theorem tslot_of_build (h : StartupLeft s (.build :: p)) : s.tslot = .empty0 := by
  by_contra hne
  simpa [hne] using h.build

theorem pslot_of_putp (h : StartupLeft s (.putp :: p)) : s.pslot = .empty0 := by
  by_contra hne
  simpa [hne] using h.putp

/-- Once armed, STARTUP issues IDLE only. -/
theorem eq_idle (h : StartupLeft s (i :: p)) (hu : s.uie = true) : i = .idle :=
  of_decide_eq_true (Bool.and_eq_true_iff.mp (h.parked hu)).1

/-- Once armed, both slots have been filled: neither BUILD nor PUTP is left. -/
theorem slots_filled (h : StartupLeft s p) (hu : s.uie = true) : s.tslot ≠ .empty0 ∧ s.pslot ≠ .empty0 := by
  have hidle : ∀ i ∈ p, i = .idle := by simpa using h.parked hu
  have hbuild : p.count .build = 0 := List.count_eq_zero.mpr fun hi => nomatch hidle _ hi
  have hputp : p.count .putp = 0 := List.count_eq_zero.mpr fun hi => nomatch hidle _ hi
  exact ⟨by simpa [hbuild] using h.build, by simpa [hputp] using h.putp⟩

/-- The first TICK finds both slots FULL (R87). -/
theorem bothFull_eq_true (h : StartupLeft s p) (hinv : StateInv s) (hu : s.uie = true) (hrun : s.run = false) :
    bothFull s = true := by
  obtain ⟨htslot, hpslot⟩ := h.slots_filled hu
  have htaken : s.tslot ≠ .taken := fun ht => nomatch hrun.symm.trans (hinv.tslotTaken.mpr ht)
  have hptaken : s.pslot ≠ .taken := fun ht => nomatch hrun.symm.trans (hinv.pslotTaken.mpr ht)
  obtain ⟨handle, hhandle⟩ := Slot.exists_eq_full hpslot hptaken
  exact bothFull_iff.mpr ⟨Slot.exists_eq_full htslot htaken, hhandle⟩

/-- No schedulable operation raises a fault: the slots and `UIE` exclude the cause of each start-up fault, and
the invariant the other two (R130, R154). -/
theorem noFault_of_next (h : StartupLeft s (startupPart (i :: l))) (hinv : StateInv s)
    (hi : i.schedulable = true) (ht : exec i s = .next t) : t.fault = .noFault := by
  cases hc : t.fault with
  | noFault => rfl
  | slotEmpty =>
    obtain ⟨rfl | ⟨rfl, hrun⟩, hslots⟩ := raises_of_next ht hc nofun
    · exact nomatch hi
    · obtain ⟨-, -, hu⟩ := tickEnabled_iff.mp (exec_tick_next ht).1
      exact nomatch hslots.symm.trans (h.bothFull_eq_true hinv hu hrun)
  | slotRewrite =>
    obtain ⟨rfl, hne⟩ | ⟨rfl, hne⟩ := raises_of_next ht hc nofun
    exacts [absurd h.tslot_of_build hne, absurd h.pslot_of_putp hne]
  | owner =>
    obtain ⟨rfl | rfl | rfl, hrun⟩ := raises_of_next ht hc nofun <;>
      exact nomatch h.eq_idle (hinv.armed hrun)
  | phaseRange => exact absurd hc (exec_keeps_inv hinv ht).faults.1
  | indexRange => exact absurd hc (exec_keeps_inv hinv ht).faults.2

/-- The account goes on with what is left after the operation. -/
theorem of_next (h : StartupLeft s (startupPart (i :: l))) (hi : i.schedulable = true)
    (ht : exec i s = .next t) (hf : t.fault = .noFault) : StartupLeft t (startupPart l) := by
  cases i with
  | idle =>
    obtain ⟨-, rfl⟩ := exec_idle_next ht
    exact h.tail nofun nofun
  | getmax =>
    obtain ⟨-, ⟨-, rfl⟩ | ⟨-, rfl⟩⟩ := exec_getmax_next ht
    exacts [{ h.tail nofun nofun with }, nomatch hf]
  | build =>
    obtain ⟨-, ⟨he, rfl⟩ | ⟨-, rfl⟩⟩ := exec_build_next ht
    exacts [h.fill_tslot he _, nomatch hf]
  | putp =>
    obtain ⟨-, ⟨he, rfl⟩ | ⟨-, rfl⟩⟩ := exec_putp_next ht
    exacts [h.fill_pslot he, nomatch hf]
  | enable =>
    obtain ⟨-, ⟨-, rfl⟩ | ⟨-, rfl⟩⟩ := exec_enable_next ht
    exacts [{ h.tail nofun nofun with }, nomatch hf]
  | listen =>
    have hidle : (startupPart l).all (· = .idle) = true := (Bool.and_eq_true_iff.mp h.listen).1
    obtain ⟨-, ⟨-, rfl⟩ | ⟨-, rfl⟩⟩ := exec_listen_next ht
    exacts [{ h.tail nofun nofun with parked := fun _ => hidle }, nomatch hf]
  | uev => exact exec_uev_next ht ▸ { h with }
  | tick =>
    have h : StartupLeft s (startupPart l) := h
    obtain ⟨-, ⟨v, d, hv, -, rfl⟩ | ⟨c, hc, rfl⟩⟩ := exec_tick_next ht
    · obtain ⟨u, hu, -, -, rfl⟩ := invocation_eq_ok.mp hv
      obtain ⟨-, rfl⟩ | ⟨-, T, hT, hp, rfl⟩ := claimIfNeeded_eq_ok.mp hu
      · exact { h with }
      · exact { h with build := by simpa [hT] using h.build, putp := by simpa [hp] using h.putp }
    · exact absurd hf (invocation_error_ne_noFault hc)
  | claim | adv | ack | fold | quad | idx | lut | mux | setd => exact nomatch hi

end StartupLeft

/-- A run of schedulable operations that has the account right where it begins raises no fault. -/
theorem execAll_noFault_of_startupLeft {l : List Instr} {s : State} (hl : l.all Instr.schedulable = true)
    (hinv : StateInv s) (hf : s.fault = .noFault) (h : StartupLeft s (startupPart l)) :
    (∀ r, execAll l s ≠ .fault r) ∧ ∀ t, execAll l s = .next t → t.fault = .noFault := by
  induction l generalizing s with
  | nil => exact ⟨nofun, fun t ht => Host.Outcome.next.inj ht ▸ hf⟩
  | cons i l ih =>
    obtain ⟨hi, hl⟩ := Bool.and_eq_true_iff.mp hl
    cases hres : exec i s with
    | next u =>
      have hfu := h.noFault_of_next hinv hi hres
      rw [execAll_cons_of_next hres]
      exact ih hl (exec_keeps_inv hinv hres) hfu (h.of_next hi hres hfu)
    | fault r => exact absurd hres (exec_ne_fault hf i r)
    | refused r => simp [execAll, hres]

/-- Settles O59: at reset the whole program is left, and a run that has the account of `StartupLeft` right
where it begins raises no fault. -/
theorem wellFormedStartupNeverFaults : Obligations.WellFormedStartupNeverFaults := by
  unfold Obligations.WellFormedStartupNeverFaults
  exact fun c l hc hl hwf => execAll_noFault_of_startupLeft hl (stateInv_resetWith hc) (resetWith_fault c)
    (startupLeft_resetWith c hwf)

/-- Settles O8: the table of R147 element by element, and the code of "no fault recorded" is 0 (R62). -/
theorem resetState : Obligations.ResetState := by
  unfold Obligations.ResetState
  have noFault_code (c : Config) : faultCode (State.resetWith c).fault = 0#3 := rfl
  exact ⟨fun c => ⟨resetWith_phase c, resetWith_run c, resetWith_tslot c, resetWith_pslot c, resetWith_uif c,
    resetWith_uie c, resetWith_pwmEn c, noFault_code c, resetWith_out c, resetWith_cfg c⟩,
    Config.hardware, rfl⟩

end Sys2Proof.Machine
end
